-- ==== Sys2Proof/Word.lean ====
section
/-! DEFINITION. The words of the block: bytes, bus addresses, the 25-bit transaction word (30_encoding R81), and
the plain-data type that holds a store. -/

namespace Sys2Proof

/-- A data byte: every transfer is one byte (20_memory R50). -/
abbrev Byte := BitVec 8

/-- A CPU bus address, 16 bits, decoded exactly as delivered (20_memory R59). -/
abbrev Addr := BitVec 16

/-- Format BUS, the transaction word `W : A[15:0] : D[7:0]` (30_encoding R81). -/
abbrev BusWord := BitVec 25

/-- A store (ROM image or RAM) as (offset, byte) pairs in one canonical form, see `Memory.wf`. -/
abbrev Memory := List Host.Cell

end Sys2Proof
end

