-- ==== Sys2Proof/Config.lean ====
section
/-! DEFINITION. What a construction fixes for good (00_scope R10) and the free values of the spec (00_scope R16). -/

namespace Sys2Proof

/-- The parameters of 00_scope R10 other than the image. `SEG_COUNT` is the constant 4 (R9) and stands in the type of
the segment table. -/
structure Params where
  /-- `SEG_SIZE`: segment size and bank granule, in bytes. -/
  segSize : Nat
  /-- `RAM_BANKS`. -/
  ramBanks : Nat
  /-- `RAM_BANK_SIZE`: bytes per RAM bank, the size of each port. -/
  ramBankSize : Nat
  /-- `RAM_RD_OFF`: offset of the read port inside a segment. -/
  ramRdOff : Nat
  /-- `RAM_WR_OFF`: offset of the write port inside a segment. -/
  ramWrOff : Nat
  /-- `SEG_BASE`: bus address of byte 0 of segment 0. -/
  segBase : Addr
  /-- `HOT_A`: bus address of Hotspot A ("select ROM"). -/
  hotA : Addr
  /-- `HOT_B`: bus address of Hotspot B ("select RAM"). -/
  hotB : Addr
  /-- `SHADOW_LIMIT`: window addresses below it are the peripheral's. -/
  shadowLimit : Addr
  /-- `WINDOW` as half-open ranges of addresses; an address is in the window if some range holds it. -/
  window : List (Nat × Nat)
  /-- `START_BANK`: the ROM bank reset maps into segment 3. -/
  startBank : Nat
  deriving DecidableEq, Repr

/-- A whole configuration: the parameters and the cartridge image, `romLen` bytes of which `rom` lists those that
differ from the unlisted byte (10_state R29). -/
structure Config extends Params where
  /-- `L`: the length of the image in bytes. -/
  romLen : Nat
  /-- The image's bytes, in canonical form. -/
  rom : Memory
  deriving DecidableEq, Repr

/-! The free values (`draw` of 00_scope R16). Each has no body: nothing in Lean can evaluate it, so a statement about
the model holds for every value. The argument `k` is the number of the draw (`State.draws`). -/

/-- `draw Byte`: an unspecified byte, or the peripheral's answer to a read (00_scope R16, 60_exceptions R189). -/
opaque Config.freeByte (k : Nat) : Byte

/-- A free choice of two: Keep or Overwrite (40_engine R116), or the peripheral's answer to a write (41_scheme R157). -/
opaque Config.freeBool (k : Nat) : Bool

/-- `draw Nat in [0, n + 1)`: the Random Source's answer at reset (70_reset_and_hazards R202). -/
opaque Config.freeBelow (n k : Nat) : Fin (n + 1)

/-- The unspecified byte RAM cell `i` holds after RAM initialisation number `k` (10_state R38). -/
opaque Config.freeRam (k i : Nat) : Byte

end Sys2Proof
end

