-- ==== Sys2Proof/Machine/Defaults.lean ====
section
/-! DEFINITION. The numbers of the spec a reader may want to correct (91_not_in_source N1): the layout of a hotspot
value, the bank limit, the default parameters of 00_scope R10, and the configuration `State.reset` is built from. -/

namespace Sys2Proof.Machine

/-- `SEG_COUNT` (00_scope R9). -/
def segCount : Nat := 4

/-- Width of the bank field of a hotspot value, `V[5:0]` (30_encoding R83). -/
def bankFieldWidth : Nat := 6

/-- Position of the segment field of a hotspot value, `V >> 6` (30_encoding R83). -/
def segFieldShift : Nat := 6

/-- Most ROM banks and most RAM banks a configuration may have (00_scope R10, R11 item 2). -/
def maxBanks : Nat := 64

/-- Number of bus addresses (10_state R36). -/
def addrCount : Nat := 0x10000

/-- The byte an unlisted offset of the ROM store stands for. A storage convention of the model, not a value of the
spec: `CONSTRUCT` lists every other byte of the image. DESIGN CHOICE, safe (assumption log 16). -/
def romUnlisted (_ : Nat) : Byte := 0

/-- The defaults of 00_scope R10. PRESUMED, unsafe for claims about one machine: addresses and RAM geometry come from
general knowledge (92_eei_decisions D2, D3; assumption log 8). `ramBanks` and `startBank` are OPEN in the spec:
DESIGN CHOICE, unsafe, the values of fixture CFG64 of 95_test_vectors (assumption log 7). -/
def defaultParams : Params where
  segSize := 1024
  ramBanks := 8
  ramBankSize := 512
  ramRdOff := 0
  ramWrOff := 512
  segBase := 0x1000
  hotA := 0x003F
  hotB := 0x003E
  shadowLimit := 0x003E
  window := [(0x0000, 0x0040), (0x1000, 0x2000)]
  startBank := 0

/-- The configuration of `State.reset`: the defaults with a 64-bank image in which no byte is listed. DESIGN CHOICE,
unsafe for claims about one image (assumption log 7). -/
def defaultConfig : Config where
  toParams := defaultParams
  romLen := 65536
  rom := []

end Sys2Proof.Machine
end

