-- ==== Sys2Proof/Syntax.lean ====
section
/-! DEFINITION. The operations, one constructor per row of spec/opcode_table.json (30_encoding R90, R96), and the
transactions a host issues (30_encoding R80). -/

namespace Sys2Proof

/-- The two hotspots (41_scheme R141). -/
inductive Hotspot where
  | a
  | b
  deriving DecidableEq, Repr

/-- What the host CPU's bus issues: a BUS word (30_encoding R81) or the CTL strobe (R82). -/
inductive Txn where
  | bus (t : BusWord)
  | reset
  deriving DecidableEq, Repr

/-- One operation class of the block with its operands. -/
inductive Instr where
  /-- `PEEK.SHADOW` (41_scheme R146). -/
  | peekShadow (a : Addr)
  /-- `PEEK.HOT` (41_scheme R147). -/
  | peekHot (h : Hotspot)
  /-- `PEEK.ROM` (40_engine R114). -/
  | peekRom (a : Addr)
  /-- `PEEK.RAM.RD` (40_engine R115). -/
  | peekRamRd (a : Addr)
  /-- `PEEK.RAM.WRPORT` (40_engine R116). -/
  | peekRamWrport (a : Addr)
  /-- `PEEK.RAM.GAP` (40_engine R117). -/
  | peekRamGap (a : Addr)
  /-- `PEEK.OOW` (41_scheme R145). -/
  | peekOow (a : Addr)
  /-- `POKE.HOTA` with its value in format HSV (41_scheme R153). -/
  | pokeHota (v : Byte)
  /-- `POKE.HOTB` with its value in format HSV (41_scheme R154). -/
  | pokeHotb (v : Byte)
  /-- `POKE.ROM` (40_engine R122). -/
  | pokeRom (a : Addr) (v : Byte)
  /-- `POKE.RAM.WR` (40_engine R121). -/
  | pokeRamWr (a : Addr) (v : Byte)
  /-- `POKE.RAM.RDPORT` (40_engine R123). -/
  | pokeRamRdport (a : Addr) (v : Byte)
  /-- `POKE.RAM.GAP` (40_engine R124). -/
  | pokeRamGap (a : Addr) (v : Byte)
  /-- `POKE.SHADOW` (41_scheme R157). -/
  | pokeShadow (a : Addr) (v : Byte)
  /-- `POKE.OOW` (41_scheme R155). -/
  | pokeOow (a : Addr) (v : Byte)
  /-- `SELROM`, a second name of Hotspot A writes (30_encoding R96). -/
  | selrom (seg : BitVec 2) (n : BitVec 6)
  /-- `SELRAM`, a second name of Hotspot B writes (30_encoding R96). -/
  | selram (seg : BitVec 2) (n : BitVec 6)
  /-- `RESET` (70_reset_and_hazards R202). -/
  | reset
  /-- `MAP`, the internal primitive (40_engine R110). -/
  | map (b s : Nat)
  /-- `CONSTRUCT` from an image and the parameters (70_reset_and_hazards R200). -/
  | construct (image : List Byte) (p : Params)
  deriving DecidableEq, Repr

/-- Why a transaction has no row. -/
inductive DecodeError where
  /-- The number has bits above `T[24]`: it is no BUS word (30_encoding R81). -/
  | notABusWord
  /-- The address is in no class, or in a segment whose entry is no legal bank index; 00_scope R11 item 6 and 10_state
  R24 exclude both. -/
  | noRow (a : Addr)
  deriving DecidableEq, Repr

end Sys2Proof
end

