-- ==== Sys2Proof/Machine/State.lean ====
section
/-! DEFINITION. The state of the block (10_state) as plain data, the reasons a step can stop, and the state after
power-on. -/

namespace Sys2Proof.Machine

/-- The segment table `Seg[0..3]`: each entry holds a bank index, a natural (10_state R23). -/
structure SegTable where
  s0 : Nat
  s1 : Nat
  s2 : Nat
  s3 : Nat
  deriving DecidableEq, Repr

/-- The record the fault register holds: the bank and segment `map` was asked for (10_state R27). -/
inductive FaultRec where
  /-- F1: the bank index names neither a ROM nor a RAM bank (60_exceptions R181). -/
  | bankOutOfRange (bank seg : Nat)
  /-- F2: the segment index is 4 or more (60_exceptions R181). -/
  | segmentOutOfRange (bank seg : Nat)
  deriving DecidableEq, Repr

/-- Direction of a refused out-of-window access (10_state R28). -/
inductive Dir where
  | read
  | write
  deriving DecidableEq, Repr

/-- The record the refusal mark holds (10_state R28). -/
inductive RefusalRec where
  /-- RF1: the address is not in `WINDOW` (41_scheme R145, R155). -/
  | outOfWindow (a : Addr) (dir : Dir)
  /-- RF2: a read of a hotspot (41_scheme R147). -/
  | hotspotRead (a : Addr)
  deriving DecidableEq, Repr

/-- One call to the Addressable Peripheral (10_state R35). -/
inductive Event where
  | periphRead (a : Addr) (v : Byte)
  | periphWrite (a : Addr) (v : Byte) (h : Bool)
  deriving DecidableEq, Repr

/-- The result value of an operation: the byte of a `peek`, the handled flag of a `poke` (10_state R22). -/
inductive Reply where
  | byte (v : Byte)
  | handled (h : Bool)
  deriving DecidableEq, Repr

/-- Why construction stops, with the recorded values of 60_exceptions R181. -/
inductive ConfigError where
  | ce1 (len segSize : Nat)
  /-- The count out of range; `ROM_BANKS` where both are (DESIGN CHOICE, unsafe, assumption log 20). -/
  | ce2 (count : Nat)
  | ce3 (segBase : Addr) (segSize : Nat)
  | ce4 (hotA hotB : Addr)
  | ce5 (shadowLimit : Addr)
  | ce6 (a : Addr)
  | ce7 (rdOff wrOff size : Nat)
  | ce8 (startBank : Nat)
  deriving DecidableEq, Repr

/-- Why a step faults. -/
inductive Fault where
  /-- Raised by every operation but `CONSTRUCT` at a state whose fault register is set: a faulted machine has no step
  (60_exceptions R182). Safe: it is the spec's own stop. -/
  | halted (r : FaultRec)
  /-- Raised by `CONSTRUCT` on a configuration that fails 00_scope R11: no machine exists (60_exceptions R183).
  Safe: it is the spec's own stop. -/
  | configError (e : ConfigError)
  /-- Raised by `CONSTRUCT` on a `SEG_SIZE` that is no power of two or a `RAM_BANK_SIZE` of 0, values outside the
  ranges of 00_scope R10. DESIGN CHOICE, safe: the spec gives such arguments no machine (assumption log 14). -/
  | parameterRange (segSize ramBankSize : Nat)
  deriving DecidableEq, Repr

/-- Why a step is refused. -/
inductive Refusal where
  /-- Raised by an arm of `exec` whose instruction has no meaning yet. Safe. -/
  | notModelled (mnemonic : String)
  /-- Raised by every operation but `CONSTRUCT` at a state whose refusal mark is set: no operation has a step
  (60_exceptions R184). Safe: it is the spec's own stop. -/
  | halted (r : RefusalRec)
  /-- Raised by `exec` alone, never by `step`: the operation class is not the one the spec's decode selects for its
  address at this state (30_encoding R89, R90), so it is no transaction of the block here. Safe (assumption log 10). -/
  | notSelected (mnemonic : String)
  /-- Raised by `step` alone, for an address in no class of 30_encoding R87, R88, or in a segment whose entry is no legal bank
  index. Safe: 00_scope R11 item 6 and 10_state R24 exclude both (assumption log 10). -/
  | undecoded (e : DecodeError)
  deriving DecidableEq, Repr

/-- Everything the spec gives the machine, and four fields of the model's own (the last four). -/
structure State where
  /-- The configuration fixed at construction (00_scope R10), the image among it (10_state R29). -/
  cfg : Config
  /-- The segment table (10_state R23). -/
  seg : SegTable
  /-- The RAM store (10_state R30): the cells that differ from the byte drawn for them. -/
  ram : Memory
  /-- The fault register (10_state R27). -/
  fault : Option FaultRec
  /-- The refusal mark (10_state R28). -/
  refused : Option RefusalRec
  /-- The peripheral event record, oldest first (10_state R35). -/
  events : List Event
  /-- MODEL'S OWN: transactions issued and not yet served, oldest first (assumption log 3). -/
  pending : List Txn
  /-- MODEL'S OWN: the result of the last operation (assumption log 4). -/
  reply : Option Reply
  /-- MODEL'S OWN: the number of the next free value (assumption log 5). -/
  draws : Nat
  /-- MODEL'S OWN: the number of the RAM initialisation an unlisted cell shows (assumption log 6). -/
  ramInit : Nat
  deriving DecidableEq, Repr

/-- The machine after power-on, which is construction followed by one reset (70_reset_and_hazards R201): segments 0 to 2
hold free draws in `[0, ROM_BANKS)`, segment 3 `START_BANK`, every RAM byte is a draw, both marks are clear (10_state
R38). Construction takes draw 0 for RAM, reset draws 1 to 3 for the segments and 4 for RAM. -/
def State.reset : State where
  cfg := defaultConfig
  seg :=
    { s0 := (Config.freeBelow 63 1).val
      s1 := (Config.freeBelow 63 2).val
      s2 := (Config.freeBelow 63 3).val
      s3 := defaultParams.startBank }
  ram := []
  fault := none
  refused := none
  events := []
  pending := []
  reply := none
  draws := 5
  ramInit := 4

end Sys2Proof.Machine
end

