-- ==== Sys2Proof/Machine/Operands.lean ====
section
/-! DEFINITION. Address classes (41_scheme R144), operand assembly (30_encoding R84 to R86) and segment translation
(20_memory R60 to R62), as functions of the configuration and the segment table. -/

namespace Sys2Proof.Machine

/-- `CONSTRUCT`'s arguments are in the ranges of 00_scope R10. -/
def paramsInRange (p : Params) : Bool :=
  decide (2 ^ p.segSize.log2 = p.segSize) && decide (1 ≤ p.ramBankSize)

/-- `ROM_BANKS = L / SEG_SIZE` (00_scope R10). -/
def romBanks (c : Config) : Nat := c.romLen / c.segSize

/-- `ROM_BANKS + RAM_BANKS`: the legal bank indices lie below it (10_state R24). -/
def bankCount (c : Config) : Nat := romBanks c + c.ramBanks

/-- Bytes of the RAM store (10_state R30). -/
def ramLen (c : Config) : Nat := c.ramBanks * c.ramBankSize

/-- `isRom(b)` (10_state R26). -/
def isRom (c : Config) (b : Nat) : Bool := decide (b < romBanks c)

/-- `isRam(b)` (10_state R26). -/
def isRam (c : Config) (b : Nat) : Bool := decide (romBanks c ≤ b ∧ b < bankCount c)

/-- `a in WINDOW` (00_scope R10). -/
def inWindow (c : Config) (a : Addr) : Bool :=
  c.window.any (fun r => decide (r.1 ≤ a.toNat ∧ a.toNat < r.2))

/-- `a in SHADOW` (00_scope R11). -/
def inShadow (c : Config) (a : Addr) : Bool :=
  inWindow c a && decide (a.toNat < c.shadowLimit.toNat)

/-- The bus address of a hotspot (10_state R32, R33). -/
def hotAddr (c : Config) : Hotspot → Addr
  | .a => c.hotA
  | .b => c.hotB

/-- `a` equals a hotspot address in all 16 bits (41_scheme R141). -/
def isHot (c : Config) (a : Addr) : Bool := decide (a = c.hotA) || decide (a = c.hotB)

/-- `a in SEG_REGION` (00_scope R11). -/
def inSegRegion (c : Config) (a : Addr) : Bool :=
  decide (c.segBase.toNat ≤ a.toNat ∧ a.toNat < c.segBase.toNat + segCount * c.segSize)

/-- `segDecode` (20_memory R60): segment number and offset of an address of the segment region, which it must be. -/
def segDecode (c : Config) (a : Addr) : Nat × Nat :=
  ((a.toNat - c.segBase.toNat) / c.segSize, (a.toNat - c.segBase.toNat) % c.segSize)

/-- Entry `s` of the segment table; no segment above 3 exists, and none is ever asked for. -/
def SegTable.get (t : SegTable) : Nat → Nat
  | 0 => t.s0
  | 1 => t.s1
  | 2 => t.s2
  | _ => t.s3

/-- `Seg[s] <- b` (00_scope R14); a segment above 3 does not exist and nothing is written. -/
def SegTable.set (t : SegTable) (s b : Nat) : SegTable :=
  match s with
  | 0 => { t with s0 := b }
  | 1 => { t with s1 := b }
  | 2 => { t with s2 := b }
  | 3 => { t with s3 := b }
  | _ => t

/-- The ports of a RAM-mapped segment (20_memory R62), with the offset inside the port. -/
inductive Port where
  | read (k : Nat)
  | write (k : Nat)
  | gap
  deriving DecidableEq, Repr

/-- Which port an offset falls in, by address alone (20_memory R62, read port first). -/
def portOf (c : Config) (off : Nat) : Port :=
  if c.ramRdOff ≤ off ∧ off < c.ramRdOff + c.ramBankSize then .read (off - c.ramRdOff)
  else if c.ramWrOff ≤ off ∧ off < c.ramWrOff + c.ramBankSize then .write (off - c.ramWrOff)
  else .gap

/-- What an address of the segment region resolves to at a segment table: a ROM byte, a RAM cell behind one of its
ports, or the remainder of a RAM-mapped segment (30_encoding R89). -/
inductive Target where
  | rom (i : Nat)
  | readPort (i : Nat)
  | writePort (i : Nat)
  | gap
  deriving DecidableEq, Repr

/-- The target behind bank index `b` at offset `off`, if `b` is legal (20_memory R61, R62). -/
def bankTarget (c : Config) (b off : Nat) : Option Target :=
  if isRom c b then some (.rom (b * c.segSize + off))
  else if isRam c b then
    match portOf c off with
    | .read k => some (.readPort ((b - romBanks c) * c.ramBankSize + k))
    | .write k => some (.writePort ((b - romBanks c) * c.ramBankSize + k))
    | .gap => some .gap
  else none

/-- Resolution of an address of the segment region (30_encoding R86, R89). -/
def resolve (c : Config) (t : SegTable) (a : Addr) : Option Target :=
  if inSegRegion c a then bankTarget c (t.get (segDecode c a).1) (segDecode c a).2 else none

/-- The target of a read, once the window, shadow and hotspot tests have let it through (41_scheme R149). -/
def readTarget (c : Config) (t : SegTable) (a : Addr) : Option Target :=
  if inWindow c a && !inShadow c a && !isHot c a then resolve c t a else none

/-- The target of a write, once the window and hotspot tests have let it through (41_scheme R158). -/
def writeTarget (c : Config) (t : SegTable) (a : Addr) : Option Target :=
  if inWindow c a && !isHot c a then resolve c t a else none

/-- The engine handles this write: it resolves to a RAM write port (40_engine R120). -/
def engineHandles (c : Config) (t : SegTable) (a : Addr) : Bool :=
  match writeTarget c t a with
  | some (.writePort _) => true
  | _ => false

/-- `targetSegment = V >> 6` (30_encoding R84). -/
def hsvSeg (v : Byte) : Nat := v.toNat / 2 ^ segFieldShift

/-- The bank number `V & 0b111111` (30_encoding R84). -/
def hsvBank (v : Byte) : Nat := v.toNat % 2 ^ bankFieldWidth

/-- `(seg << 6) | n`, the value the pseudo-operations write (30_encoding R96). -/
def selValue (seg : BitVec 2) (n : BitVec 6) : Byte :=
  (seg.setWidth 8 <<< segFieldShift) ||| n.setWidth 8

end Sys2Proof.Machine
end

