-- ==== Sys2Proof/Machine/Flags.lean ====
section
/-! DEFINITION. The block has no flags and no condition codes (10_state R22). The one boolean it computes is the result
of a `poke`. -/

namespace Sys2Proof.Machine

/-- Where the result of a `poke` comes from (41_scheme R159). -/
inductive Handled where
  /-- The cartridge consumed the write: true. -/
  | consumed
  /-- The write was forwarded: the peripheral's answer. -/
  | forwarded (h : Bool)
  /-- Neither: false. -/
  | ignored
  deriving DecidableEq, Repr

/-- The handled result (41_scheme R159). -/
def handledResult : Handled → Bool
  | .consumed => true
  | .forwarded h => h
  | .ignored => false

end Sys2Proof.Machine
end

