-- ==== Sys2Proof/Machine/Memory.lean ====
section
/-! DEFINITION. The stores as canonical lists of cells. `d i` is the byte an unlisted offset `i` reads as; a list is
canonical when its offsets rise strictly and no entry equals what an unlisted offset reads as. -/

namespace Sys2Proof

/-- The byte at offset `i`. -/
def Memory.read (d : Nat → Byte) : Memory → Nat → Byte
  | [], i => d i
  | (k, b) :: m, i => if i = k then b else Memory.read d m i

/-- Store `v` at offset `i`, keeping the canonical form: a byte equal to the unlisted one removes the entry. -/
def Memory.write (d : Nat → Byte) : Memory → Nat → Byte → Memory
  | [], i, v => if v = d i then [] else [(i, v)]
  | (k, b) :: m, i, v =>
    if i < k then (if v = d i then (k, b) :: m else (i, v) :: (k, b) :: m)
    else if i = k then (if v = d i then m else (i, v) :: m)
    else (k, b) :: Memory.write d m i v

/-- The canonical form. -/
def Memory.wf (d : Nat → Byte) : Memory → Bool
  | [] => true
  | (k, b) :: m => b != d k && m.all (fun c => decide (k < c.1)) && Memory.wf d m

/-- Every listed offset lies in `[0, n)`. -/
def Memory.within (n : Nat) (m : Memory) : Bool := m.all (fun c => decide (c.1 < n))

/-- The canonical list of a byte sequence that starts at offset `i` (70_reset_and_hazards R200: the image as
supplied). -/
def Memory.ofBytes (d : Nat → Byte) : Nat → List Byte → Memory
  | _, [] => []
  | i, b :: bs => if b = d i then Memory.ofBytes d (i + 1) bs else (i, b) :: Memory.ofBytes d (i + 1) bs

end Sys2Proof
end

