-- ==== Sys2Proof/Machine/Ops.lean ====
section
/-! DEFINITION. The named operations every meaning is written over: reads and writes of the stores, draws, the peripheral's
two calls, raising a fault, refusing, `map`, and RAM initialisation. -/

namespace Sys2Proof.Machine

/-- The outcome of one operation. -/
abbrev Out := Host.Outcome State Fault Refusal

/-- `return v` with the result value (00_scope R14); see `State.reply`. -/
def answer (r : Reply) (s : State) : State := { s with reply := some r }

/-- The end of an operation that returns no value. -/
def done (s : State) : State := { s with reply := none }

/-- `raise Fault(kind, info)`: the register takes the record, the operation has no result and changes nothing else
(00_scope R15, 60_exceptions R182). The state after it is a next state, since the register is state; the operations
that follow have no step (`whenLive`). DEDUCED, safe (assumption log 1). -/
def raise (r : FaultRec) (s : State) : State := { s with fault := some r, reply := none }

/-- `refuse Reason(info)`: the mark takes the record and nothing else changes (00_scope R15, 60_exceptions R184).
DEDUCED, safe (assumption log 2). -/
def refuse (r : RefusalRec) (s : State) : State := { s with refused := some r, reply := none }

/-- Run an operation at a machine that has neither mark; at a marked machine there is no step (60_exceptions R182,
R184, R187). -/
def whenLive (s : State) (k : Out) : Out :=
  match s.fault with
  | some r => .fault (.halted r)
  | none =>
    match s.refused with
    | some r => .refused (.halted r)
    | none => k

/-- `Rom[i]` (00_scope R14). -/
def romRead (c : Config) (i : Nat) : Byte := Memory.read romUnlisted c.rom i

/-- `Ram[i]` (00_scope R14): a cell no write has set reads as the byte drawn for it (10_state R38). -/
def ramRead (s : State) (i : Nat) : Byte := Memory.read (Config.freeRam s.ramInit) s.ram i

/-- `Ram[i] <- v` (00_scope R14). -/
def ramWrite (i : Nat) (v : Byte) (s : State) : State :=
  { s with ram := Memory.write (Config.freeRam s.ramInit) s.ram i v }

/-- `Ram[i] <- draw Byte` for every `i` (70_reset_and_hazards R202). -/
def ramDraw (s : State) : State := { s with ram := [], ramInit := s.draws, draws := s.draws + 1 }

/-- The next `draw Byte`. -/
def nextByte (s : State) : Byte := Config.freeByte s.draws

/-- The next free choice of two. -/
def nextBool (s : State) : Bool := Config.freeBool s.draws

/-- The next `draw Nat in [0, ROM_BANKS)` (70_reset_and_hazards R202); a valid configuration has a ROM bank. -/
def nextBank (s : State) : Nat := (Config.freeBelow (romBanks s.cfg - 1) s.draws).val

/-- One draw has been taken. -/
def drawn (s : State) : State := { s with draws := s.draws + 1 }

/-- Append to the peripheral event record (10_state R35). -/
def record (e : Event) (s : State) : State := { s with events := s.events ++ [e] }

/-- `PeriphRead(a)` with its record and its result (41_scheme R146, 60_exceptions R189). -/
def periphRead (a : Addr) (s : State) : State :=
  drawn (answer (.byte (nextByte s)) (record (.periphRead a (nextByte s)) s))

/-- `PeriphWrite(a, v)` with its record and its result (41_scheme R157, 60_exceptions R189). -/
def periphWrite (a : Addr) (v : Byte) (s : State) : State :=
  drawn (answer (.handled (handledResult (.forwarded (nextBool s)))) (record (.periphWrite a v (nextBool s)) s))

/-- The end of a `poke` the engine did not handle: forward it if the address is in the shadow range, else it is ignored
(41_scheme R156). -/
def unhandled (a : Addr) (v : Byte) (s : State) : State :=
  if inShadow s.cfg a then periphWrite a v s else answer (.handled (handledResult .ignored)) s

/-- `Seg[i] <- b`. -/
def setSeg (i b : Nat) (s : State) : State := { s with seg := s.seg.set i b }

/-- The checks and the effect of `map` (40_engine R110): the segment is checked first. -/
def mapBank (b i : Nat) (s : State) : Except FaultRec State :=
  if segCount ≤ i then .error (.segmentOutOfRange b i)
  else if bankCount s.cfg ≤ b then .error (.bankOutOfRange b i)
  else .ok (setSeg i b s)

/-- `map(b, i)` inside an operation that goes on with `k`; a fault ends the operation (60_exceptions R185: the state is
the one before the faulting `map` plus the record). -/
def mapThen (b i : Nat) (s : State) (k : State → Out) : Out :=
  match mapBank b i s with
  | .ok s' => k s'
  | .error r => .next (raise r s)

/-- `map(draw Nat in [0, ROM_BANKS), i)` (70_reset_and_hazards R202). -/
def mapDrawn (i : Nat) (s : State) (k : State → Out) : Out := mapThen (nextBank s) i (drawn s) k

/-- The body of `reset` (70_reset_and_hazards R202): one draw per segment 0 to 2, the start bank into segment 3, then
every RAM byte. -/
def resetBody (s : State) : Out :=
  mapDrawn 0 s fun s =>
  mapDrawn 1 s fun s =>
  mapDrawn 2 s fun s =>
  mapThen s.cfg.startBank 3 s fun s =>
  .next (done (ramDraw s))

end Sys2Proof.Machine
end

