-- ==== Sys2Proof/Machine/Control.lean ====
section
/-! DEFINITION. `RESET`, the internal primitive `MAP`, and `CONSTRUCT` with the checks of 00_scope R11. -/

namespace Sys2Proof.Machine

/-- `RESET` (70_reset_and_hazards R202). -/
def execReset (s : State) : Out := whenLive s (resetBody s)

/-- `MAP(b, i)` (40_engine R110). At a marked machine there is no step (10_state R27, R28; assumption log 15). -/
def execMap (b i : Nat) (s : State) : Out :=
  whenLive s (mapThen b i s fun s => .next (done s))

/-- The lowest of the last `k` bus addresses at which `p` holds. -/
def firstAddr (p : Addr → Bool) : Nat → Option Addr
  | 0 => none
  | k + 1 =>
    if p (BitVec.ofNat 16 (addrCount - (k + 1))) then some (BitVec.ofNat 16 (addrCount - (k + 1)))
    else firstAddr p k

/-- A window address in no class (00_scope R11 item 6). -/
def unclassed (c : Config) (a : Addr) : Bool :=
  inWindow c a && !inShadow c a && !isHot c a && !inSegRegion c a

/-- A segment address outside the window (00_scope R11 item 3). -/
def strayRegion (c : Config) (a : Addr) : Bool := inSegRegion c a && !inWindow c a

/-- Both ports lie inside the segment and they are disjoint (00_scope R11 item 7). -/
def portsFit (c : Config) : Bool :=
  decide (c.ramRdOff + c.ramBankSize ≤ c.segSize) && decide (c.ramWrOff + c.ramBankSize ≤ c.segSize) &&
    decide (c.ramRdOff + c.ramBankSize ≤ c.ramWrOff ∨ c.ramWrOff + c.ramBankSize ≤ c.ramRdOff)

/-- The checks of 00_scope R11, items 1 to 8 in order; the first failure gives the code of 60_exceptions R181.
Inside item 2 the spec gives no order, and R181 says that `CE2` records "the count": where `ROM_BANKS` and `RAM_BANKS` are
both out of range, the count recorded is `ROM_BANKS`. DESIGN CHOICE, unsafe (assumption log 20). -/
def checkConfig (c : Config) : Option ConfigError :=
  if c.romLen % c.segSize ≠ 0 then some (.ce1 c.romLen c.segSize)
  else if ¬(1 ≤ romBanks c ∧ romBanks c ≤ maxBanks) then some (.ce2 (romBanks c))
  else if ¬c.ramBanks ≤ maxBanks then some (.ce2 c.ramBanks)
  else if ¬(c.segBase.toNat + segCount * c.segSize ≤ addrCount ∧ firstAddr (strayRegion c) addrCount = none) then
    some (.ce3 c.segBase c.segSize)
  else if ¬(c.hotA ≠ c.hotB ∧ inWindow c c.hotA = true ∧ inWindow c c.hotB = true) then
    some (.ce4 c.hotA c.hotB)
  else if ¬(c.shadowLimit.toNat ≤ c.hotA.toNat ∧ c.shadowLimit.toNat ≤ c.hotB.toNat) then
    some (.ce5 c.shadowLimit)
  else
    match firstAddr (unclassed c) addrCount with
    | some a => some (.ce6 a)
    | none =>
      if ¬portsFit c = true then some (.ce7 c.ramRdOff c.ramWrOff c.ramBankSize)
      else if ¬c.startBank < romBanks c then some (.ce8 c.startBank)
      else none

/-- The configuration a construction fixes: its parameters and its image (70_reset_and_hazards R200). -/
def makeConfig (image : List Byte) (p : Params) : Config :=
  { toParams := p, romLen := image.length, rom := Memory.ofBytes romUnlisted 0 image }

/-- The state between the checks of a construction and the reset that ends it (70_reset_and_hazards R200). The draw count
goes on, so that every draw is a fresh one; no transaction has been issued to the new machine (assumption log 13). -/
def freshState (c : Config) (s : State) : State :=
  ramDraw
    { cfg := c
      seg := { s0 := 0, s1 := 0, s2 := 0, s3 := 0 }
      ram := []
      fault := none
      refused := none
      events := []
      pending := []
      reply := none
      draws := s.draws
      ramInit := s.ramInit }

/-- `CONSTRUCT(image, p)` (70_reset_and_hazards R200): a configuration error leaves no machine (60_exceptions R183), else
the new machine, reset. It makes a new machine, so the marks of the state before it do not matter. -/
def execConstruct (image : List Byte) (p : Params) (s : State) : Out :=
  if !paramsInRange p then .fault (.parameterRange p.segSize p.ramBankSize)
  else
    match checkConfig (makeConfig image p) with
    | some e => .fault (.configError e)
    | none => resetBody (freshState (makeConfig image p) s)

end Sys2Proof.Machine
end

