-- ==== Sys2Proof/Machine/Peek.lean ====
section
/-! DEFINITION. The rows of `peek` (41_scheme R145 to R149, 40_engine R113 to R118). Each asks for the condition that
selects its row (30_encoding R90). -/

namespace Sys2Proof.Machine

/-- `PEEK.SHADOW` (41_scheme R146): the peripheral answers, whatever the segment table holds. -/
def execPeekShadow (a : Addr) (s : State) : Out :=
  whenLive s <|
    if inShadow s.cfg a then .next (periphRead a s) else .refused (.notSelected "PEEK.SHADOW")

/-- `PEEK.HOT` (41_scheme R147): refused as `HotspotRead`. -/
def execPeekHot (h : Hotspot) (s : State) : Out :=
  whenLive s <|
    if inWindow s.cfg (hotAddr s.cfg h) && !inShadow s.cfg (hotAddr s.cfg h) then
      .next (refuse (.hotspotRead (hotAddr s.cfg h)) s)
    else .refused (.notSelected "PEEK.HOT")

/-- `PEEK.ROM` (40_engine R114). -/
def execPeekRom (a : Addr) (s : State) : Out :=
  whenLive s <|
    match readTarget s.cfg s.seg a with
    | some (.rom i) => .next (answer (.byte (romRead s.cfg i)) s)
    | _ => .refused (.notSelected "PEEK.ROM")

/-- `PEEK.RAM.RD` (40_engine R115). -/
def execPeekRamRd (a : Addr) (s : State) : Out :=
  whenLive s <|
    match readTarget s.cfg s.seg a with
    | some (.readPort i) => .next (answer (.byte (ramRead s i)) s)
    | _ => .refused (.notSelected "PEEK.RAM.RD")

/-- The cell a write-port read names afterwards: kept, or overwritten with a second free byte (40_engine R116). -/
def disturb (i : Nat) (s : State) : State :=
  if nextBool s then drawn (ramWrite i (nextByte (drawn s)) (drawn s)) else drawn (drawn s)

/-- `PEEK.RAM.WRPORT` (40_engine R116): a free byte returned; the cell kept or overwritten with a free byte. -/
def execPeekRamWrport (a : Addr) (s : State) : Out :=
  whenLive s <|
    match readTarget s.cfg s.seg a with
    | some (.writePort i) => .next (disturb i (drawn (answer (.byte (nextByte s)) s)))
    | _ => .refused (.notSelected "PEEK.RAM.WRPORT")

/-- `PEEK.RAM.GAP` (40_engine R117): a free byte. -/
def execPeekRamGap (a : Addr) (s : State) : Out :=
  whenLive s <|
    match readTarget s.cfg s.seg a with
    | some .gap => .next (drawn (answer (.byte (nextByte s)) s))
    | _ => .refused (.notSelected "PEEK.RAM.GAP")

/-- `PEEK.OOW` (41_scheme R145): refused as `OutOfWindow(a, read)`. -/
def execPeekOow (a : Addr) (s : State) : Out :=
  whenLive s <|
    if inWindow s.cfg a then .refused (.notSelected "PEEK.OOW")
    else .next (refuse (.outOfWindow a .read) s)

end Sys2Proof.Machine
end

