-- ==== Sys2Proof/Machine/Poke.lean ====
section
/-! DEFINITION. The rows of `poke` (41_scheme R153 to R160, 40_engine R120 to R125) and the two second names of hotspot
writes (30_encoding R96). -/

namespace Sys2Proof.Machine

/-- A write to Hotspot A with value `v`: `map(V & 0x3F, V >> 6)`, then true (41_scheme R153). -/
def writeHotA (v : Byte) (s : State) : Out :=
  mapThen (hsvBank v) (hsvSeg v) s fun s => .next (answer (.handled (handledResult .consumed)) s)

/-- A write to Hotspot B with value `v`: `map((V & 0x3F) + ROM_BANKS, V >> 6)`, then true (41_scheme R154). -/
def writeHotB (v : Byte) (s : State) : Out :=
  mapThen (hsvBank v + romBanks s.cfg) (hsvSeg v) s fun s =>
    .next (answer (.handled (handledResult .consumed)) s)

/-- A write to Hotspot A is selected: it lies in the window (30_encoding R88). -/
def hotASelected (c : Config) : Bool := inWindow c c.hotA

/-- A write to Hotspot B is selected: it lies in the window and is not Hotspot A (30_encoding R88). -/
def hotBSelected (c : Config) : Bool := inWindow c c.hotB && decide (c.hotA ≠ c.hotB)

/-- `POKE.HOTA` (41_scheme R153). -/
def execPokeHota (v : Byte) (s : State) : Out :=
  whenLive s <| if hotASelected s.cfg then writeHotA v s else .refused (.notSelected "POKE.HOTA")

/-- `POKE.HOTB` (41_scheme R154). -/
def execPokeHotb (v : Byte) (s : State) : Out :=
  whenLive s <| if hotBSelected s.cfg then writeHotB v s else .refused (.notSelected "POKE.HOTB")

/-- `POKE.ROM` (40_engine R122, 41_scheme R156): no effect on the block; false, or forwarded in the overlap with the
shadow range. -/
def execPokeRom (a : Addr) (v : Byte) (s : State) : Out :=
  whenLive s <|
    match writeTarget s.cfg s.seg a with
    | some (.rom _) => .next (unhandled a v s)
    | _ => .refused (.notSelected "POKE.ROM")

/-- `POKE.RAM.WR` (40_engine R121). -/
def execPokeRamWr (a : Addr) (v : Byte) (s : State) : Out :=
  whenLive s <|
    match writeTarget s.cfg s.seg a with
    | some (.writePort i) => .next (answer (.handled (handledResult .consumed)) (ramWrite i v s))
    | _ => .refused (.notSelected "POKE.RAM.WR")

/-- `POKE.RAM.RDPORT` (40_engine R123, 41_scheme R156). -/
def execPokeRamRdport (a : Addr) (v : Byte) (s : State) : Out :=
  whenLive s <|
    match writeTarget s.cfg s.seg a with
    | some (.readPort _) => .next (unhandled a v s)
    | _ => .refused (.notSelected "POKE.RAM.RDPORT")

/-- `POKE.RAM.GAP` (40_engine R124, 41_scheme R156). -/
def execPokeRamGap (a : Addr) (v : Byte) (s : State) : Out :=
  whenLive s <|
    match writeTarget s.cfg s.seg a with
    | some .gap => .next (unhandled a v s)
    | _ => .refused (.notSelected "POKE.RAM.GAP")

/-- `POKE.SHADOW` (41_scheme R157): a shadow write that no hotspot and no RAM write port took. -/
def execPokeShadow (a : Addr) (v : Byte) (s : State) : Out :=
  whenLive s <|
    if inShadow s.cfg a && !isHot s.cfg a && !engineHandles s.cfg s.seg a then .next (periphWrite a v s)
    else .refused (.notSelected "POKE.SHADOW")

/-- `POKE.OOW` (41_scheme R155): refused as `OutOfWindow(a, write)`. -/
def execPokeOow (a : Addr) (_v : Byte) (s : State) : Out :=
  whenLive s <|
    if inWindow s.cfg a then .refused (.notSelected "POKE.OOW")
    else .next (refuse (.outOfWindow a .write) s)

/-- `SELROM seg, n` is `POKE HOT_A, (seg << 6) | n` (30_encoding R96). -/
def execSelrom (seg : BitVec 2) (n : BitVec 6) (s : State) : Out :=
  whenLive s <|
    if hotASelected s.cfg then writeHotA (selValue seg n) s else .refused (.notSelected "SELROM")

/-- `SELRAM seg, n` is `POKE HOT_B, (seg << 6) | n` (30_encoding R96). -/
def execSelram (seg : BitVec 2) (n : BitVec 6) (s : State) : Out :=
  whenLive s <|
    if hotBSelected s.cfg then writeHotB (selValue seg n) s else .refused (.notSelected "SELRAM")

end Sys2Proof.Machine
end

