-- ==== Sys2Proof/Machine/Dispatch.lean ====
section
/-! DEFINITION. One arm per operation. -/

namespace Sys2Proof.Machine

def exec (i : Instr) (s : State) : Host.Outcome State Fault Refusal :=
  match i with
  | .peekShadow a => Sys2Proof.Machine.execPeekShadow a s
  | .peekHot h => Sys2Proof.Machine.execPeekHot h s
  | .peekRom a => Sys2Proof.Machine.execPeekRom a s
  | .peekRamRd a => Sys2Proof.Machine.execPeekRamRd a s
  | .peekRamWrport a => Sys2Proof.Machine.execPeekRamWrport a s
  | .peekRamGap a => Sys2Proof.Machine.execPeekRamGap a s
  | .peekOow a => Sys2Proof.Machine.execPeekOow a s
  | .pokeHota v => Sys2Proof.Machine.execPokeHota v s
  | .pokeHotb v => Sys2Proof.Machine.execPokeHotb v s
  | .pokeRom a v => Sys2Proof.Machine.execPokeRom a v s
  | .pokeRamWr a v => Sys2Proof.Machine.execPokeRamWr a v s
  | .pokeRamRdport a v => Sys2Proof.Machine.execPokeRamRdport a v s
  | .pokeRamGap a v => Sys2Proof.Machine.execPokeRamGap a v s
  | .pokeShadow a v => Sys2Proof.Machine.execPokeShadow a v s
  | .pokeOow a v => Sys2Proof.Machine.execPokeOow a v s
  | .selrom seg n => Sys2Proof.Machine.execSelrom seg n s
  | .selram seg n => Sys2Proof.Machine.execSelram seg n s
  | .reset => Sys2Proof.Machine.execReset s
  | .map b k => Sys2Proof.Machine.execMap b k s
  | .construct image p => Sys2Proof.Machine.execConstruct image p s

end Sys2Proof.Machine
end

