-- ==== Sys2Proof/WellFormed.lean ====
section
/-! DEFINITION. Well-formed operations: the part of each row's "selected by" column (30_encoding R90) that the address
and the configuration decide, in the order of 30_encoding R87 and R88. -/

namespace Sys2Proof

open Machine

/-- The address reaches the engine on a read (41_scheme R148). -/
def readsSegment (c : Config) (a : Addr) : Bool :=
  inWindow c a && !inShadow c a && !isHot c a && inSegRegion c a

/-- The address reaches the engine on a write (41_scheme R156). -/
def writesSegment (c : Config) (a : Addr) : Bool :=
  inWindow c a && !isHot c a && inSegRegion c a

/-- The offset of a segment address lies in the read port, in the write port, in neither. -/
def inReadPort (c : Config) (a : Addr) : Bool :=
  match portOf c (segDecode c a).2 with
  | .read _ => true
  | _ => false

def inWritePort (c : Config) (a : Addr) : Bool :=
  match portOf c (segDecode c a).2 with
  | .write _ => true
  | _ => false

def inGap (c : Config) (a : Addr) : Bool :=
  match portOf c (segDecode c a).2 with
  | .gap => true
  | _ => false

/-- The hotspot is decoded as itself: it lies in the window, and Hotspot B is not also Hotspot A (00_scope R11 item 4). -/
def hotDecodes (c : Config) (h : Hotspot) : Bool :=
  inWindow c (hotAddr c h) && (decide (h = .a) || decide (c.hotA ≠ c.hotB))

/-- The well-formedness check. -/
def Instr.wellFormed (c : Config) : Instr → Bool
  | .peekShadow a => inShadow c a
  | .peekHot h => hotDecodes c h && !inShadow c (hotAddr c h)
  | .peekRom a => readsSegment c a
  | .peekRamRd a => readsSegment c a && inReadPort c a
  | .peekRamWrport a => readsSegment c a && inWritePort c a
  | .peekRamGap a => readsSegment c a && inGap c a
  | .peekOow a => !inWindow c a
  | .pokeHota _ => hotDecodes c .a
  | .pokeHotb _ => hotDecodes c .b
  | .pokeRom a _ => writesSegment c a
  | .pokeRamWr a _ => writesSegment c a && inWritePort c a
  | .pokeRamRdport a _ => writesSegment c a && inReadPort c a
  | .pokeRamGap a _ => writesSegment c a && inGap c a
  | .pokeShadow a _ => inShadow c a && !isHot c a
  | .pokeOow a _ => !inWindow c a
  | .selrom _ _ => hotDecodes c .a
  | .selram _ _ => hotDecodes c .b
  | .reset => true
  | .map _ _ => true
  | .construct _ p => paramsInRange p

end Sys2Proof
end

