-- ==== Sys2Proof/Decode.lean ====
section
/-! DEFINITION. Decode of a transaction (30_encoding R80 to R91) and, after it, the encoder. Decode has two levels: the
word and the configuration give an address class, and for a segment access the segment table gives the row (R89). -/

namespace Sys2Proof

open Machine

/-- `T[24]`, the top bit, true for a write (30_encoding R81). -/
def wordW (t : BusWord) : Bool := t.msb

/-- `T[23:8]` (30_encoding R81). -/
def wordA (t : BusWord) : Addr := t.extractLsb' 8 16

/-- `T[7:0]` (30_encoding R81). -/
def wordD (t : BusWord) : Byte := t.extractLsb' 0 8

/-- Decode of a read, first match wins (30_encoding R87, then R89). -/
def decodeRead (c : Config) (t : SegTable) (a : Addr) : Except DecodeError Instr :=
  if !inWindow c a then .ok (.peekOow a)
  else if inShadow c a then .ok (.peekShadow a)
  else if a = c.hotA then .ok (.peekHot .a)
  else if a = c.hotB then .ok (.peekHot .b)
  else match resolve c t a with
    | some (.rom _) => .ok (.peekRom a)
    | some (.readPort _) => .ok (.peekRamRd a)
    | some (.writePort _) => .ok (.peekRamWrport a)
    | some .gap => .ok (.peekRamGap a)
    | none => .error (.noRow a)

/-- Decode of a write, first match wins (30_encoding R88, then R89). An address in the segment region takes the engine's
row also where it lies in the shadow range; that row forwards an unhandled write itself (41_scheme R156). DEDUCED, safe
(assumption log 11). -/
def decodeWrite (c : Config) (t : SegTable) (a : Addr) (v : Byte) : Except DecodeError Instr :=
  if !inWindow c a then .ok (.pokeOow a v)
  else if a = c.hotA then .ok (.pokeHota v)
  else if a = c.hotB then .ok (.pokeHotb v)
  else if inSegRegion c a then
    match resolve c t a with
    | some (.rom _) => .ok (.pokeRom a v)
    | some (.readPort _) => .ok (.pokeRamRdport a v)
    | some (.writePort _) => .ok (.pokeRamWr a v)
    | some .gap => .ok (.pokeRamGap a v)
    | none => .error (.noRow a)
  else if inShadow c a then .ok (.pokeShadow a v)
  else .error (.noRow a)

/-- Decode of a BUS word; the data field of a read is ignored (30_encoding R81). -/
def decodeBus (c : Config) (t : SegTable) (w : BusWord) : Except DecodeError Instr :=
  if wordW w then decodeWrite c t (wordA w) (wordD w) else decodeRead c t (wordA w)

/-- Decode of a transaction (30_encoding R80). -/
def decodeTxn (c : Config) (t : SegTable) : Txn → Except DecodeError Instr
  | .bus w => decodeBus c t w
  | .reset => .ok .reset

/-- Decode of a number: a BUS word has 25 bits and no more (30_encoding R94). -/
def decodeNat (c : Config) (t : SegTable) (w : Nat) : Except DecodeError Instr :=
  if w < 2 ^ 25 then decodeBus c t (BitVec.ofNat 25 w) else .error .notABusWord

/-- The bank an address of a table word is read at. Which row a segment access is depends on the bank its segment holds
(30_encoding R89). A write port takes the first RAM bank, since a row of the table is told from the others by the port
bit there; every other offset takes `START_BANK`, a ROM bank, as segment 3 does after reset. DESIGN CHOICE, safe
(assumption log 12). -/
def tableBank (c : Config) (a : Addr) : Nat :=
  match portOf c (segDecode c a).2 with
  | .write _ => if c.ramBanks = 0 then c.startBank else romBanks c
  | _ => c.startBank

/-- The segment table a word of the opcode table is read at: every segment holds `tableBank` of its address. -/
def tableSeg (c : Config) (a : Addr) : SegTable :=
  { s0 := tableBank c a, s1 := tableBank c a, s2 := tableBank c a, s3 := tableBank c a }

/-- The operation a number of the opcode table decodes to, under the default configuration its words are written for
(30_encoding R90), at `tableSeg`. Rows PEEK.RAM.RD, PEEK.RAM.GAP, POKE.RAM.RDPORT and POKE.RAM.GAP share their words with
the ROM rows (R89). DESIGN CHOICE, safe (assumption log 12). -/
def decodeTableWord (nbits w : Nat) : Option Instr :=
  if w < 2 ^ nbits then
    match decodeNat defaultConfig (tableSeg defaultConfig (wordA (BitVec.ofNat 25 w))) w with
    | .ok i => some i
    | .error _ => none
  else none

/-! The encoder. -/

/-- The BUS word of a read; the ignored data field is 0 (30_encoding R81; assumption log 17). -/
def busRead (a : Addr) : BusWord := BitVec.ofNat 25 (a.toNat * 2 ^ 8)

/-- The BUS word of a write (30_encoding R81). -/
def busWrite (a : Addr) (v : Byte) : BusWord := BitVec.ofNat 25 (2 ^ 24 + a.toNat * 2 ^ 8 + v.toNat)

/-- The transaction that issues an operation, if it has one: `MAP` and `CONSTRUCT` are internal (30_encoding R80). -/
def encode (c : Config) : Instr → Option Txn
  | .peekShadow a => some (.bus (busRead a))
  | .peekHot h => some (.bus (busRead (hotAddr c h)))
  | .peekRom a => some (.bus (busRead a))
  | .peekRamRd a => some (.bus (busRead a))
  | .peekRamWrport a => some (.bus (busRead a))
  | .peekRamGap a => some (.bus (busRead a))
  | .peekOow a => some (.bus (busRead a))
  | .pokeHota v => some (.bus (busWrite c.hotA v))
  | .pokeHotb v => some (.bus (busWrite c.hotB v))
  | .pokeRom a v => some (.bus (busWrite a v))
  | .pokeRamWr a v => some (.bus (busWrite a v))
  | .pokeRamRdport a v => some (.bus (busWrite a v))
  | .pokeRamGap a v => some (.bus (busWrite a v))
  | .pokeShadow a v => some (.bus (busWrite a v))
  | .pokeOow a v => some (.bus (busWrite a v))
  | .selrom seg n => some (.bus (busWrite c.hotA (selValue seg n)))
  | .selram seg n => some (.bus (busWrite c.hotB (selValue seg n)))
  | .reset => some .reset
  | .map _ _ => none
  | .construct _ _ => none

/-- The core operation behind a second name (30_encoding R96); every other operation is its own. -/
def Instr.core : Instr → Instr
  | .selrom seg n => .pokeHota (selValue seg n)
  | .selram seg n => .pokeHotb (selValue seg n)
  | i => i

/-- The part of a row's condition that the segment table decides (30_encoding R89). For `POKE.SHADOW` it says that the
write is decoded as such at once and not reached through an engine row (41_scheme R156). -/
def Instr.selected (c : Config) (t : SegTable) : Instr → Bool
  | .peekRom a => isRom c (t.get (segDecode c a).1)
  | .peekRamRd a => isRam c (t.get (segDecode c a).1)
  | .peekRamWrport a => isRam c (t.get (segDecode c a).1)
  | .peekRamGap a => isRam c (t.get (segDecode c a).1)
  | .pokeRom a _ => isRom c (t.get (segDecode c a).1)
  | .pokeRamWr a _ => isRam c (t.get (segDecode c a).1)
  | .pokeRamRdport a _ => isRam c (t.get (segDecode c a).1)
  | .pokeRamGap a _ => isRam c (t.get (segDecode c a).1)
  | .pokeShadow a _ => !inSegRegion c a
  | _ => true

end Sys2Proof
end

