-- ==== Sys2Proof/Machine/Fetch.lean ====
section
/-! DEFINITION. The block fetches nothing by itself (10_state R21): its next operation is the oldest transaction the host has
issued. -/

namespace Sys2Proof.Machine

/-- The host CPU issues a transaction after those already issued (20_memory R64). -/
def issue (t : Txn) (s : State) : State := { s with pending := s.pending ++ [t] }

/-- The address of a BUS word in the segment region selects its row through the segment table (30_encoding R89), so the
segment it names is given the bank `decodeTableWord` reads the word at (assumption log 12). -/
def selectBank (w : BusWord) (s : State) : State :=
  if inSegRegion s.cfg (wordA w) then
    { s with seg := s.seg.set (segDecode s.cfg (wordA w)).1 (tableBank s.cfg (wordA w)) }
  else s

/-- Put a BUS word where the next step takes its transaction from. -/
def placeWord (w : Nat) (s : State) : State :=
  { selectBank (BitVec.ofNat 25 w) s with pending := .bus (BitVec.ofNat 25 w) :: s.pending }

end Sys2Proof.Machine
end

