-- ==== Sys2Proof/Machine/Step.lean ====
section
/-! DEFINITION. One step: the oldest pending transaction is decoded at this state and executed, as one atomic transition
(20_memory R53). With nothing pending the block does nothing (60_exceptions R188). A marked machine has no step
(60_exceptions R182, R184). -/

namespace Sys2Proof.Machine

def step (s : State) : Host.Outcome State Fault Refusal :=
  whenLive s <|
    match s.pending with
    | [] => .next s
    | t :: rest =>
      match decodeTxn s.cfg s.seg t with
      | .ok i => exec i { s with pending := rest }
      | .error e => .refused (.undecoded e)

/-- `s` with the BUS word numbered `w` by the opcode table as its next transaction. -/
def State.withFetchWord (s : State) (_nbits w : Nat) : State := placeWord w s

end Sys2Proof.Machine
end

