-- ==== Sys2Proof/Safety.lean ====
section
/-! DEFINITION. What claims about the block are stated in: a valid configuration, the invariant of reachable states, a
machine that can step, and the kinds of transaction. -/

namespace Sys2Proof

open Machine

/-- A configuration that meets the ranges of 00_scope R10 and the eight items of R11. -/
structure ValidConfig (c : Config) : Prop where
  /-- R10: `SEG_SIZE` is a power of two. -/
  segSizePow2 : ∃ k, c.segSize = 2 ^ k
  /-- R10: `1 <= RAM_BANK_SIZE`. -/
  ramBankSizePos : 1 ≤ c.ramBankSize
  /-- R11 item 1. -/
  wholeBanks : c.romLen % c.segSize = 0
  /-- R11 item 2, ROM. -/
  romBanksRange : 1 ≤ romBanks c ∧ romBanks c ≤ 64
  /-- R11 item 2, RAM. -/
  ramBanksRange : c.ramBanks ≤ 64
  /-- R11 item 3, first part. -/
  regionFits : c.segBase.toNat + 4 * c.segSize ≤ 0x10000
  /-- R11 item 3, second part. -/
  regionInWindow : ∀ a, inSegRegion c a = true → inWindow c a = true
  /-- R11 item 4. -/
  hotsDiffer : c.hotA ≠ c.hotB
  hotAInWindow : inWindow c c.hotA = true
  hotBInWindow : inWindow c c.hotB = true
  /-- R11 item 5. -/
  shadowBelow : c.shadowLimit.toNat ≤ c.hotA.toNat ∧ c.shadowLimit.toNat ≤ c.hotB.toNat
  /-- R11 item 6. -/
  classed : ∀ a, inWindow c a = true → inShadow c a = true ∨ isHot c a = true ∨ inSegRegion c a = true
  /-- R11 item 7. -/
  rdPortInside : c.ramRdOff + c.ramBankSize ≤ c.segSize
  wrPortInside : c.ramWrOff + c.ramBankSize ≤ c.segSize
  portsDisjoint : c.ramRdOff + c.ramBankSize ≤ c.ramWrOff ∨ c.ramWrOff + c.ramBankSize ≤ c.ramRdOff
  /-- R11 item 8. -/
  startBankRange : c.startBank < romBanks c

/-- A machine that can step: neither mark is set (60_exceptions R182, R184). -/
def Live (s : State) : Prop := s.fault = none ∧ s.refused = none

/-- The invariant of every state the block can be in. -/
structure StateInv (s : State) : Prop where
  /-- The configuration was accepted at construction (60_exceptions R183). -/
  config : ValidConfig s.cfg
  /-- The image's list is canonical and inside the image (10_state R29). -/
  romWf : Memory.wf romUnlisted s.cfg.rom = true
  romWithin : Memory.within s.cfg.romLen s.cfg.rom = true
  /-- Every segment-table entry is a legal bank index (10_state R24). -/
  segLegal : ∀ i, i < 4 → s.seg.get i < bankCount s.cfg
  /-- The RAM's list is canonical and inside the store (10_state R30). -/
  ramWf : Memory.wf (Config.freeRam s.ramInit) s.ram = true
  ramWithin : Memory.within (ramLen s.cfg) s.ram = true
  /-- The RAM initialisation unlisted cells show took a draw that is past, so the next one takes another (assumption logs 5
  and 6, about fields of the model's own). -/
  ramInitPast : s.ramInit < s.draws
  /-- At most one mark is set (60_exceptions R187). -/
  oneMark : s.fault = none ∨ s.refused = none
  /-- A recorded fault is one this scheme can raise: F1 with a bank index that is not legal, into a segment that exists; F2
  is unreachable (60_exceptions R181). -/
  faultRecord : ∀ r, s.fault = some r → ∃ b i, r = .bankOutOfRange b i ∧ bankCount s.cfg ≤ b ∧ i < 4

/-- Bus address `a` is offset `off` of segment `i` (20_memory R60). -/
def AtSegment (c : Config) (a : Addr) (i off : Nat) : Prop :=
  i < 4 ∧ off < c.segSize ∧ a.toNat = c.segBase.toNat + i * c.segSize + off

/-- A read of `a` passes the window, shadow and hotspot tests (41_scheme R149). -/
def ReadPasses (c : Config) (a : Addr) : Prop :=
  inWindow c a = true ∧ inShadow c a = false ∧ isHot c a = false

/-- A write of `a` passes the window and hotspot tests (41_scheme R158). -/
def WritePasses (c : Config) (a : Addr) : Prop := inWindow c a = true ∧ isHot c a = false

/-- The bank index a write of `v` to a hotspot asks for (30_encoding R84, R85). -/
def hotspotBank (c : Config) (h : Hotspot) (v : Byte) : Nat :=
  match h with
  | .a => (v &&& 0x3F#8).toNat
  | .b => (v &&& 0x3F#8).toNat + romBanks c

/-- The operations the bus can issue: all but the internal `MAP` and `CONSTRUCT` (30_encoding R80). -/
def Instr.isTransaction : Instr → Bool
  | .map _ _ => false
  | .construct _ _ => false
  | _ => true

/-- The rows of `peek` (30_encoding R90, `W = 0`). -/
def Instr.isPeek : Instr → Bool
  | .peekShadow _ | .peekHot _ | .peekRom _ | .peekRamRd _ | .peekRamWrport _ | .peekRamGap _ | .peekOow _ => true
  | _ => false

/-- The rows that call `map` (10_state R25). -/
def Instr.callsMap : Instr → Bool
  | .pokeHota _ | .pokeHotb _ | .selrom _ _ | .selram _ _ | .reset | .map _ _ | .construct _ _ => true
  | _ => false

/-- The rows that may write the RAM store (10_state R31). -/
def Instr.mayWriteRam : Instr → Bool
  | .pokeRamWr _ _ | .peekRamWrport _ | .reset | .construct _ _ => true
  | _ => false

end Sys2Proof
end

