-- ==== Sys2Proof/Certificates/Slice0/Obligations.lean ====
section
/-! DEFINITION. The statements for the provers. Each is about every configuration and every state its hypotheses admit;
free values stand behind existentials, so no statement rests on one. -/

open Sys2Proof Sys2Proof.Machine

/-! The invariant. -/

/-- The state after power-on meets the invariant (70_reset_and_hazards R201). Its configuration is the model's choice,
assumption logs 7 and 8, and its draw counts are the model's own, logs 5 and 6. -/
def Obligations.PowerOnStateMeetsInvariant : Prop := StateInv State.reset

/-- Every step keeps the invariant: the configuration stays valid, every segment-table entry stays a legal bank index, the
stores keep their canonical form, at most one mark is set, and only F1 is ever recorded (10_state R24, 60_exceptions R181,
R187). That the RAM's initialisation is a past draw is a clause about fields of the model's own (assumption logs 5, 6). -/
def Obligations.StepKeepsInvariant : Prop := ∀ s t, StateInv s → step s = .next t → StateInv t

/-- A machine without a mark always answers. For a read of the segment region this is 40_engine R118, and 30_encoding R94
gives every word a row. The rest is the model's: that a transaction which faults or is refused has a next state (the spec says
a refused one has no step, 00_scope R15, 10_state R28) rests on assumption logs 1 and 2, and that a step with nothing
pending answers the same state on log 3. -/
def Obligations.UnmarkedMachineAlwaysSteps : Prop := ∀ s, StateInv s → Live s → ∃ t, step s = .next t

/-- `step` never refuses because of a wrongly chosen row: what decode selects is what the row's condition asks for
(30_encoding R89). Holds of every state. The refusal's name is the
model's, assumption log 10. -/
def Obligations.StepNeverPicksAWrongRow : Prop := ∀ s m, step s ≠ .refused (.notSelected m)

/-! Power-on, reset, construction. -/

/-- The values of 10_state R38 after power-on that the spec fixes. -/
def Obligations.PowerOnValues : Prop :=
  State.reset.seg.s3 = State.reset.cfg.startBank ∧
  State.reset.seg.s0 < romBanks State.reset.cfg ∧ State.reset.seg.s1 < romBanks State.reset.cfg ∧
  State.reset.seg.s2 < romBanks State.reset.cfg ∧
  State.reset.fault = none ∧ State.reset.refused = none ∧ State.reset.events = []

/-- The state after power-on is a construction followed by one reset (70_reset_and_hazards R201), of the image and the
parameters the model chose (assumption logs 7, 8). The draw counts and the
empty pending list are the model's own (logs 5, 6, 13). -/
def Obligations.PowerOnIsConstructionAndReset : Prop :=
  ∀ s, s.draws = 0 → exec (.construct (List.replicate 65536 0) defaultParams) s = .next State.reset

/-- `RESET` (70_reset_and_hazards R202, R204): segments 0 to 2 take ROM banks, segment 3 the start bank, every RAM byte
is a draw that no earlier draw used, and nothing else changes. The clauses about `draws`, `ramInit` and `Config.freeRam` are
the model's form of fresh draws, assumption logs 5 and 6: by `StateInv` the initialisation before has a lower number. -/
def Obligations.ResetRemapsAndRedraws : Prop :=
  ∀ s, Live s → s.cfg.startBank < romBanks s.cfg →
    ∃ d0 d1 d2 t, exec .reset s = .next t ∧
      d0 < romBanks s.cfg ∧ d1 < romBanks s.cfg ∧ d2 < romBanks s.cfg ∧
      t = { s with
        seg := { s0 := d0, s1 := d1, s2 := d2, s3 := s.cfg.startBank }
        ram := t.ram, ramInit := t.ramInit, draws := t.draws, reply := none } ∧
      s.draws ≤ t.ramInit ∧ t.ramInit < t.draws ∧ ∀ i, ramRead t i = Config.freeRam t.ramInit i

/-- `CONSTRUCT` on a valid configuration (70_reset_and_hazards R200): a machine with that image and those parameters,
reset, unmarked, with an empty event record. -/
def Obligations.ConstructBuildsTheMachine : Prop :=
  ∀ image p s, ValidConfig (makeConfig image p) →
    ∃ t, exec (.construct image p) s = .next t ∧
      t.cfg.toParams = p ∧ t.cfg.romLen = image.length ∧
      (∀ j (h : j < image.length), romRead t.cfg j = image[j]) ∧
      t.seg.get 3 = p.startBank ∧ (∀ i, i < 4 → t.seg.get i < romBanks t.cfg) ∧
      t.fault = none ∧ t.refused = none ∧ t.events = []

/-- `CONSTRUCT` makes a machine exactly on the configurations that are valid by 00_scope R11 and in the ranges of R10. The
spec's construction checks the eight items of R11 only (70_reset_and_hazards R200); that it makes no machine outside the
ranges of R10 is the model's choice, assumption log 14. -/
def Obligations.ConstructAcceptsExactlyValid : Prop :=
  ∀ image p s, (∃ t, exec (.construct image p) s = .next t) ↔ ValidConfig (makeConfig image p)

/-- The first of the eight checks that fails gives its code (60_exceptions R181, 70_reset_and_hazards R200). That
`CE2` records `ROM_BANKS` where both counts are out of range is the model's choice, assumption log 20. -/
def Obligations.ConstructStopsAtFirstFailure : Prop :=
  ∀ image p s, (∃ k, p.segSize = 2 ^ k) → 1 ≤ p.ramBankSize →
    let c := makeConfig image p
    let stops := fun e => exec (.construct image p) s = .fault (.configError e)
    if c.romLen % c.segSize ≠ 0 then stops (.ce1 image.length p.segSize)
    else if ¬(1 ≤ romBanks c ∧ romBanks c ≤ 64) then stops (.ce2 (romBanks c))
    else if ¬p.ramBanks ≤ 64 then stops (.ce2 p.ramBanks)
    else if ¬(p.segBase.toNat + 4 * p.segSize ≤ 0x10000 ∧
        ∀ a, inSegRegion c a = true → inWindow c a = true) then stops (.ce3 p.segBase p.segSize)
    else if ¬(p.hotA ≠ p.hotB ∧ inWindow c p.hotA = true ∧ inWindow c p.hotB = true) then
      stops (.ce4 p.hotA p.hotB)
    else if ¬p.shadowLimit.toNat ≤ min p.hotA.toNat p.hotB.toNat then stops (.ce5 p.shadowLimit)
    else if ∃ a, inWindow c a = true ∧ inShadow c a = false ∧ isHot c a = false ∧ inSegRegion c a = false then
      ∃ a, stops (.ce6 a) ∧
        inWindow c a = true ∧ inShadow c a = false ∧ isHot c a = false ∧ inSegRegion c a = false ∧
        ∀ b : Addr, b.toNat < a.toNat → inWindow c b = true →
          inShadow c b = true ∨ isHot c b = true ∨ inSegRegion c b = true
    else if ¬(p.ramRdOff + p.ramBankSize ≤ p.segSize ∧ p.ramWrOff + p.ramBankSize ≤ p.segSize ∧
        (p.ramRdOff + p.ramBankSize ≤ p.ramWrOff ∨ p.ramWrOff + p.ramBankSize ≤ p.ramRdOff)) then
      stops (.ce7 p.ramRdOff p.ramWrOff p.ramBankSize)
    else if ¬p.startBank < romBanks c then stops (.ce8 p.startBank)
    else ∃ t, exec (.construct image p) s = .next t

/-- Parameters outside the ranges of 00_scope R10 give no machine. Which stop they give is the model's choice,
assumption log 14. -/
def Obligations.ConstructRefusesOutOfRange : Prop :=
  ∀ image p s, ¬((∃ k, p.segSize = 2 ^ k) ∧ 1 ≤ p.ramBankSize) →
    exec (.construct image p) s = .fault (.parameterRange p.segSize p.ramBankSize)

/-! Marks. -/

/-- A faulted machine has no step of any operation, and neither has a refused one (60_exceptions R182, R184). `CONSTRUCT`
makes a new machine and is not an operation of the old one. The outcome `halted` is the model's form of "no step"
(assumption logs 1, 2). -/
def Obligations.MarkedMachineHasNoStep : Prop :=
  (∀ s r, s.fault = some r →
    step s = .fault (.halted r) ∧
    ∀ i : Instr, (∀ image p, i ≠ .construct image p) → exec i s = .fault (.halted r)) ∧
  (∀ s r, s.fault = none → s.refused = some r →
    step s = .refused (.halted r) ∧
    ∀ i : Instr, (∀ image p, i ≠ .construct image p) → exec i s = .refused (.halted r))

/-- A transaction that faults leaves the state before it plus the record, and no result (60_exceptions R182, R185). That this is a
next state is the model's reading, assumption log 1. -/
def Obligations.FaultChangesOnlyTheRegister : Prop :=
  ∀ s t i r, StateInv s → i.isTransaction = true → exec i s = .next t → t.fault = some r →
    t = { s with fault := some r, reply := none } ∧ ∃ b k, r = .bankOutOfRange b k ∧ bankCount s.cfg ≤ b ∧ k < 4

/-- A transaction that is refused sets the mark and changes nothing else (60_exceptions R184). That this is a next
state is the model's reading, assumption log 2. -/
def Obligations.RefusalChangesOnlyTheMark : Prop :=
  ∀ s t i r, i.isTransaction = true → exec i s = .next t → t.refused = some r →
    t = { s with refused := some r, reply := none }

/-- No transaction raises F2, at any state (60_exceptions R181). -/
def Obligations.SegmentFaultIsUnreachable : Prop :=
  ∀ s t i b k, i.isTransaction = true → exec i s = .next t → t.fault ≠ some (.segmentOutOfRange b k)

/-! `MAP`. -/

/-- `MAP` (40_engine R110): the segment is checked first, then the bank, then the one entry is written. -/
def Obligations.MapChecksThenWritesOneEntry : Prop :=
  ∀ s b i, Live s →
    exec (.map b i) s = .next
      (if 4 ≤ i then { s with fault := some (.segmentOutOfRange b i), reply := none }
       else if romBanks s.cfg + s.cfg.ramBanks ≤ b then
        { s with fault := some (.bankOutOfRange b i), reply := none }
       else { s with seg := s.seg.set i b, reply := none })

/-! The rows of `peek`. -/

/-- `PEEK.ROM` (40_engine R114): the byte of the mapped bank; nothing else changes. -/
def Obligations.PeekRomReturnsTheImageByte : Prop :=
  ∀ s a i off, Live s → ReadPasses s.cfg a → AtSegment s.cfg a i off → s.seg.get i < romBanks s.cfg →
    exec (.peekRom a) s =
      .next { s with reply := some (.byte (romRead s.cfg (s.seg.get i * s.cfg.segSize + off))) }

/-- `PEEK.RAM.RD` (40_engine R115): the byte of the cell behind offset `k` of the read port; nothing else changes. -/
def Obligations.PeekReadPortReturnsTheCell : Prop :=
  ∀ s a i k, Live s → ReadPasses s.cfg a → AtSegment s.cfg a i (s.cfg.ramRdOff + k) → k < s.cfg.ramBankSize →
    romBanks s.cfg ≤ s.seg.get i → s.seg.get i < romBanks s.cfg + s.cfg.ramBanks →
    exec (.peekRamRd a) s = .next
      { s with reply := some (.byte (ramRead s ((s.seg.get i - romBanks s.cfg) * s.cfg.ramBankSize + k))) }

/-- `PEEK.RAM.WRPORT` (40_engine R116): some byte; every cell but the one the port names is kept. -/
def Obligations.PeekWritePortDisturbsOneCell : Prop :=
  ∀ s a i k, StateInv s → Live s → ReadPasses s.cfg a → AtSegment s.cfg a i (s.cfg.ramWrOff + k) →
    k < s.cfg.ramBankSize → romBanks s.cfg ≤ s.seg.get i →
    ∃ v t, exec (.peekRamWrport a) s = .next t ∧
      t = { s with ram := t.ram, draws := t.draws, reply := some (.byte v) } ∧
      ∀ j, j ≠ (s.seg.get i - romBanks s.cfg) * s.cfg.ramBankSize + k → ramRead t j = ramRead s j

/-- `PEEK.RAM.GAP` (40_engine R117): some byte; nothing else changes. -/
def Obligations.PeekGapReturnsSomeByte : Prop :=
  ∀ s a i off, Live s → ReadPasses s.cfg a → AtSegment s.cfg a i off →
    ¬(s.cfg.ramRdOff ≤ off ∧ off < s.cfg.ramRdOff + s.cfg.ramBankSize) →
    ¬(s.cfg.ramWrOff ≤ off ∧ off < s.cfg.ramWrOff + s.cfg.ramBankSize) →
    romBanks s.cfg ≤ s.seg.get i → s.seg.get i < romBanks s.cfg + s.cfg.ramBanks →
    ∃ v n, exec (.peekRamGap a) s = .next { s with reply := some (.byte v), draws := n }

/-- `PEEK.SHADOW` (41_scheme R146): the peripheral is asked, the call recorded, its byte returned; also where the address
lies in the segment region too. -/
def Obligations.PeekShadowAsksThePeripheral : Prop :=
  ∀ s a, Live s → inShadow s.cfg a = true →
    ∃ v n, exec (.peekShadow a) s = .next
      { s with events := s.events ++ [.periphRead a v], reply := some (.byte v), draws := n }

/-- `PEEK.HOT` (41_scheme R147): refused; the mark is all that changes. -/
def Obligations.PeekHotspotIsRefused : Prop :=
  ∀ s h, Live s → inWindow s.cfg (hotAddr s.cfg h) = true → inShadow s.cfg (hotAddr s.cfg h) = false →
    exec (.peekHot h) s = .next { s with refused := some (.hotspotRead (hotAddr s.cfg h)), reply := none }

/-- `PEEK.OOW` and `POKE.OOW` (41_scheme R145, R155): refused; the mark is all that changes. -/
def Obligations.OutOfWindowIsRefused : Prop :=
  ∀ s a v, Live s → inWindow s.cfg a = false →
    exec (.peekOow a) s = .next { s with refused := some (.outOfWindow a .read), reply := none } ∧
    exec (.pokeOow a v) s = .next { s with refused := some (.outOfWindow a .write), reply := none }

/-! The rows of `poke`. -/

/-- `POKE.HOTA` (41_scheme R153): maps bank `V & 0x3F` into segment `V >> 6` and returns true, or faults. -/
def Obligations.PokeHotspotASelectsTheBank : Prop :=
  ∀ s v, Live s → inWindow s.cfg s.cfg.hotA = true →
    exec (.pokeHota v) s = .next
      (if (v &&& 0x3F#8).toNat < romBanks s.cfg + s.cfg.ramBanks then
        { s with seg := s.seg.set (v >>> 6).toNat (v &&& 0x3F#8).toNat, reply := some (.handled true) }
       else { s with fault := some (.bankOutOfRange (v &&& 0x3F#8).toNat (v >>> 6).toNat), reply := none })

/-- `POKE.HOTB` (41_scheme R154): maps bank `(V & 0x3F) + ROM_BANKS` into segment `V >> 6` and returns true, or faults. -/
def Obligations.PokeHotspotBSelectsTheRamBank : Prop :=
  ∀ s v, Live s → inWindow s.cfg s.cfg.hotB = true → s.cfg.hotA ≠ s.cfg.hotB →
    exec (.pokeHotb v) s = .next
      (if (v &&& 0x3F#8).toNat < s.cfg.ramBanks then
        { s with
          seg := s.seg.set (v >>> 6).toNat ((v &&& 0x3F#8).toNat + romBanks s.cfg)
          reply := some (.handled true) }
       else
        { s with
          fault := some (.bankOutOfRange ((v &&& 0x3F#8).toNat + romBanks s.cfg) (v >>> 6).toNat)
          reply := none })

/-- `SELROM` and `SELRAM` (30_encoding R96) do what the hotspot write of `(seg << 6) | n` does, and complete where it
does. -/
def Obligations.SelectPseudoOpsExpand : Prop :=
  ∀ s (seg : BitVec 2) (n : BitVec 6) (v : Byte), Live s → inWindow s.cfg s.cfg.hotA = true →
    inWindow s.cfg s.cfg.hotB = true → s.cfg.hotA ≠ s.cfg.hotB → v.toNat = seg.toNat * 64 + n.toNat →
    exec (.selrom seg n) s = exec (.pokeHota v) s ∧ exec (.selram seg n) s = exec (.pokeHotb v) s ∧
    (n.toNat < romBanks s.cfg + s.cfg.ramBanks →
      exec (.selrom seg n) s =
        .next { s with seg := s.seg.set seg.toNat n.toNat, reply := some (.handled true) }) ∧
    (n.toNat < s.cfg.ramBanks →
      exec (.selram seg n) s = .next
        { s with seg := s.seg.set seg.toNat (n.toNat + romBanks s.cfg), reply := some (.handled true) })

/-- `POKE.RAM.WR` (40_engine R121): the cell behind offset `k` of the write port takes the value, every other cell is
kept, the result is true; nothing else changes and the peripheral is not called. -/
def Obligations.PokeWritePortStoresTheByte : Prop :=
  ∀ s a v i k, StateInv s → Live s → WritePasses s.cfg a → AtSegment s.cfg a i (s.cfg.ramWrOff + k) →
    k < s.cfg.ramBankSize → romBanks s.cfg ≤ s.seg.get i →
    ∃ t, exec (.pokeRamWr a v) s = .next t ∧
      t = { s with ram := t.ram, reply := some (.handled true) } ∧
      ∀ j, ramRead t j =
        if j = (s.seg.get i - romBanks s.cfg) * s.cfg.ramBankSize + k then v else ramRead s j

/-- Writes of a ROM-mapped segment, of a RAM read port and of the remainder (40_engine R122 to R124) outside the shadow
range: the result is false and nothing else changes. -/
def Obligations.UnwritableWritesAreIgnored : Prop :=
  ∀ s a v i off, Live s → WritePasses s.cfg a → inShadow s.cfg a = false → AtSegment s.cfg a i off →
    (s.seg.get i < romBanks s.cfg →
      exec (.pokeRom a v) s = .next { s with reply := some (.handled false) }) ∧
    (romBanks s.cfg ≤ s.seg.get i → s.seg.get i < romBanks s.cfg + s.cfg.ramBanks →
      s.cfg.ramRdOff ≤ off → off < s.cfg.ramRdOff + s.cfg.ramBankSize →
      exec (.pokeRamRdport a v) s = .next { s with reply := some (.handled false) }) ∧
    (romBanks s.cfg ≤ s.seg.get i → s.seg.get i < romBanks s.cfg + s.cfg.ramBanks →
      ¬(s.cfg.ramRdOff ≤ off ∧ off < s.cfg.ramRdOff + s.cfg.ramBankSize) →
      ¬(s.cfg.ramWrOff ≤ off ∧ off < s.cfg.ramWrOff + s.cfg.ramBankSize) →
      exec (.pokeRamGap a v) s = .next { s with reply := some (.handled false) })

/-- The same writes where the segment region overlaps the shadow range: forwarded to the peripheral, recorded, its
answer returned (41_scheme R156). That such a write keeps the engine's row is the model's reading, assumption log 11. -/
def Obligations.UnhandledShadowWritesAreForwarded : Prop :=
  ∀ s a v i off, Live s → WritePasses s.cfg a → inShadow s.cfg a = true → AtSegment s.cfg a i off →
    (s.seg.get i < romBanks s.cfg →
      ∃ h n, exec (.pokeRom a v) s = .next
        { s with events := s.events ++ [.periphWrite a v h], reply := some (.handled h), draws := n }) ∧
    (romBanks s.cfg ≤ s.seg.get i → s.seg.get i < romBanks s.cfg + s.cfg.ramBanks →
      s.cfg.ramRdOff ≤ off → off < s.cfg.ramRdOff + s.cfg.ramBankSize →
      ∃ h n, exec (.pokeRamRdport a v) s = .next
        { s with events := s.events ++ [.periphWrite a v h], reply := some (.handled h), draws := n }) ∧
    (romBanks s.cfg ≤ s.seg.get i → s.seg.get i < romBanks s.cfg + s.cfg.ramBanks →
      ¬(s.cfg.ramRdOff ≤ off ∧ off < s.cfg.ramRdOff + s.cfg.ramBankSize) →
      ¬(s.cfg.ramWrOff ≤ off ∧ off < s.cfg.ramWrOff + s.cfg.ramBankSize) →
      ∃ h n, exec (.pokeRamGap a v) s = .next
        { s with events := s.events ++ [.periphWrite a v h], reply := some (.handled h), draws := n })

/-- `POKE.SHADOW` (41_scheme R157): a shadow write the engine does not handle is forwarded, recorded, and its result is
the peripheral's answer; nothing else changes. -/
def Obligations.PokeShadowForwardsTheWrite : Prop :=
  ∀ s a v, Live s → inShadow s.cfg a = true → isHot s.cfg a = false →
    engineHandles s.cfg s.seg a = false →
    ∃ h n, exec (.pokeShadow a v) s = .next
      { s with events := s.events ++ [.periphWrite a v h], reply := some (.handled h), draws := n }

/-- The result of a `poke` (41_scheme R159), row by row: a hotspot write and a write-port write, which the cartridge consumed,
return true; any other row returns the peripheral's answer where it was forwarded, and false where it was not. That `POKE.ROM`,
`POKE.RAM.RDPORT` and `POKE.RAM.GAP` themselves forward a write in the shadow range (41_scheme R156, R157) is the model's
reading, assumption log 11. -/
def Obligations.PokeResultTellsWhoTookTheWrite : Prop :=
  ∀ s t i, i.isTransaction = true → i.isPeek = false → i ≠ .reset → exec i s = .next t → Live t →
    ((∃ v, i = .pokeHota v ∨ i = .pokeHotb v) ∨ (∃ seg n, i = .selrom seg n ∨ i = .selram seg n) ∨
        (∃ a v, i = .pokeRamWr a v)) ∧ t.reply = some (.handled true) ∧ t.events = s.events ∨
    (∃ a v h, (i = .pokeRom a v ∨ i = .pokeRamRdport a v ∨ i = .pokeRamGap a v ∨ i = .pokeShadow a v) ∧
        inShadow s.cfg a = true ∧ t.reply = some (.handled h) ∧ t.events = s.events ++ [.periphWrite a v h]) ∨
    (∃ a v, (i = .pokeRom a v ∨ i = .pokeRamRdport a v ∨ i = .pokeRamGap a v) ∧
        inShadow s.cfg a = false ∧ t.reply = some (.handled false) ∧ t.events = s.events)

/-! Decode. -/

/-- A step runs the decoded oldest transaction, which it takes from the pending ones; with none pending nothing happens
(20_memory R53, R64). The pending list is the model's own, assumption log 3. -/
def Obligations.StepRunsTheDecodedTransaction : Prop :=
  (∀ s x rest i, Live s → s.pending = x :: rest → decodeTxn s.cfg s.seg x = .ok i →
    step s = exec i { s with pending := rest }) ∧
  (∀ s, Live s → s.pending = [] → step s = .next s)

/-- The transaction words of 95_test_vectors 2.1 under the default configuration, at a segment table with ROM in segment
1 and RAM in segment 2. -/
def Obligations.VectorWordsDecode : Prop :=
  let t : SegTable := { s0 := 0, s1 := 3, s2 := 69, s3 := 63 }
  let d := fun w : Nat => decodeNat defaultConfig t w
  d 0x1003F43 = .ok (.pokeHota 0x43) ∧ d 0x1003E85 = .ok (.pokeHotb 0x85) ∧
  d 0x0140000 = .ok (.peekRom 0x1400) ∧ d 0x0181000 = .ok (.peekRamRd 0x1810) ∧
  d 0x11A105A = .ok (.pokeRamWr 0x1A10 0x5A) ∧ d 0x0003D00 = .ok (.peekShadow 0x003D) ∧
  d 0x0003F00 = .ok (.peekHot .a) ∧ d 0x0004000 = .ok (.peekOow 0x0040) ∧
  d 0x10FFF00 = .ok (.pokeOow 0x0FFF 0x00) ∧ d 0x0200000 = .ok (.peekOow 0x2000)

/-- Decode of encode: for every operation with a transaction, every operand, every configuration, and every segment table
that selects its row. A second name decodes to the operation it names (30_encoding R81, R87 to R89, R96). -/
def Obligations.DecodeOfEncodeIsTheOperation : Prop :=
  ∀ c t (i : Instr) x, i.wellFormed c = true → i.selected c t = true → encode c i = some x →
    decodeTxn c t x = .ok i.core

/-- Encode of decode: no bit of a BUS word is dropped but the ignored data field of a read (30_encoding R81), where
the encoder's 0 is the model's choice (assumption log 17). -/
def Obligations.EncodeOfDecodeIsTheWord : Prop :=
  ∀ c t (w : BusWord) i, decodeBus c t w = .ok i →
    encode c i = some (.bus (if w.msb then w else w &&& 0x1FFFF00#25))

/-- Every transaction decodes, to a well-formed operation whose row the segment table selects (30_encoding R94). -/
def Obligations.EveryTransactionDecodes : Prop :=
  ∀ s x, StateInv s → ∃ i, decodeTxn s.cfg s.seg x = .ok i ∧ i.wellFormed s.cfg = true ∧ i.selected s.cfg s.seg = true

/-- The default configuration in bit terms (30_encoding R91, R86; 20_memory R60). The addresses are the spec's defaults,
assumption log 8. -/
def Obligations.DefaultMapInBits : Prop :=
  ∀ a : Addr,
    (inShadow defaultConfig a = true ↔ a.extractLsb' 6 10 = 0#10 ∧ a.extractLsb' 1 5 ≠ 31#5) ∧
    (isHot defaultConfig a = true ↔ a = 0x003E#16 ∨ a = 0x003F#16) ∧
    (inSegRegion defaultConfig a = true ↔ a.extractLsb' 12 4 = 1#4) ∧
    (inWindow defaultConfig a = true ↔
      inShadow defaultConfig a = true ∨ isHot defaultConfig a = true ∨ inSegRegion defaultConfig a = true) ∧
    (inSegRegion defaultConfig a = true →
      segDecode defaultConfig a = ((a.extractLsb' 10 2).toNat, (a.extractLsb' 0 10).toNat) ∧
      portOf defaultConfig (segDecode defaultConfig a).2 =
        if a.getLsbD 9 then .write (a.extractLsb' 0 9).toNat else .read (a.extractLsb' 0 9).toNat)

/-- The complete `peek` as a step (41_scheme R149), in its order. -/
def Obligations.PeekDispatchOrder : Prop :=
  ∀ s a rest, Live s → s.pending = .bus (busRead a) :: rest →
    (inWindow s.cfg a = false →
      step s = .next
        { s with pending := rest, refused := some (.outOfWindow a .read), reply := none }) ∧
    (inWindow s.cfg a = true → a.toNat < s.cfg.shadowLimit.toNat →
      ∃ v n, step s = .next
        { s with
          pending := rest, events := s.events ++ [.periphRead a v], reply := some (.byte v), draws := n }) ∧
    (inWindow s.cfg a = true → ¬a.toNat < s.cfg.shadowLimit.toNat → a = s.cfg.hotA ∨ a = s.cfg.hotB →
      step s = .next { s with pending := rest, refused := some (.hotspotRead a), reply := none }) ∧
    (inWindow s.cfg a = true → ¬a.toNat < s.cfg.shadowLimit.toNat → ¬(a = s.cfg.hotA ∨ a = s.cfg.hotB) →
      ∀ i off, AtSegment s.cfg a i off →
        (s.seg.get i < romBanks s.cfg → step s = exec (.peekRom a) { s with pending := rest }) ∧
        (romBanks s.cfg ≤ s.seg.get i → s.seg.get i < romBanks s.cfg + s.cfg.ramBanks →
          step s = exec
            (match portOf s.cfg off with
              | .read _ => .peekRamRd a
              | .write _ => .peekRamWrport a
              | .gap => .peekRamGap a) { s with pending := rest }))

/-- The complete `poke` as a step (41_scheme R158), in its order. -/
def Obligations.PokeDispatchOrder : Prop :=
  ∀ s a v rest, Live s → s.pending = .bus (busWrite a v) :: rest →
    (inWindow s.cfg a = false →
      step s = .next
        { s with pending := rest, refused := some (.outOfWindow a .write), reply := none }) ∧
    (inWindow s.cfg a = true → a = s.cfg.hotA → step s = exec (.pokeHota v) { s with pending := rest }) ∧
    (inWindow s.cfg a = true → a ≠ s.cfg.hotA → a = s.cfg.hotB →
      step s = exec (.pokeHotb v) { s with pending := rest }) ∧
    (inWindow s.cfg a = true → a ≠ s.cfg.hotA → a ≠ s.cfg.hotB → ∀ i off, AtSegment s.cfg a i off →
      (s.seg.get i < romBanks s.cfg → step s = exec (.pokeRom a v) { s with pending := rest }) ∧
      (romBanks s.cfg ≤ s.seg.get i → s.seg.get i < romBanks s.cfg + s.cfg.ramBanks →
        step s = exec
          (match portOf s.cfg off with
            | .read _ => .pokeRamRdport a v
            | .write _ => .pokeRamWr a v
            | .gap => .pokeRamGap a v) { s with pending := rest })) ∧
    (inWindow s.cfg a = true → a ≠ s.cfg.hotA → a ≠ s.cfg.hotB → inSegRegion s.cfg a = false →
      a.toNat < s.cfg.shadowLimit.toNat →
      ∃ h n, step s = .next
        { s with
          pending := rest, events := s.events ++ [.periphWrite a v h], reply := some (.handled h), draws := n })

/-! Whole-machine rules. -/

/-- No transaction changes the configuration or the image (10_state R29, R34; 41_scheme R140). Holds of every state. -/
def Obligations.ConfigurationNeverChanges : Prop := ∀ s t, step s = .next t → t.cfg = s.cfg

/-- Only hotspot writes, reset, `MAP` and construction write the segment table, and a hotspot write changes only the
entry it names (10_state R25). -/
def Obligations.OnlyMapWritesTheSegmentTable : Prop :=
  (∀ s t i, exec i s = .next t → i.callsMap = false → t.seg = s.seg) ∧
  (∀ s t v j, exec (.pokeHota v) s = .next t ∨ exec (.pokeHotb v) s = .next t → j < 4 → j ≠ (v >>> 6).toNat →
    t.seg.get j = s.seg.get j)

/-- Only the rows 10_state R31 names write the RAM store: after any other operation every cell reads as before. -/
def Obligations.OnlyListedRowsWriteRam : Prop :=
  ∀ s t i, exec i s = .next t → i.mayWriteRam = false → ∀ j, ramRead t j = ramRead s j

/-- No `peek` changes the segment table, and a `peek` of the shadow range changes neither table nor RAM and returns the
peripheral's byte (41_scheme R150). -/
def Obligations.PeekNeverChangesTheSegmentTable : Prop :=
  ∀ s t i, exec i s = .next t → i.isPeek = true →
    t.seg = s.seg ∧
    ∀ a, i = .peekShadow a →
      (∀ j, ramRead t j = ramRead s j) ∧
      ∃ v, t.events = s.events ++ [.periphRead a v] ∧ t.reply = some (.byte v)

/-- The peripheral is called at most once per operation, only for shadow addresses, and each call is appended to the
record: `PeriphRead(a)` by `PEEK.SHADOW` of `a`, `PeriphWrite(a, v)` by the forwarding write of `v` at `a`, under the row it
decodes to (60_exceptions R189, 10_state R35; 41_scheme R156, R157; assumption log 11). -/
def Obligations.PeripheralIsCalledOnlyInTheShadowRange : Prop :=
  ∀ s t i, exec i s = .next t → (∀ image p, i ≠ .construct image p) →
    t.events = s.events ∨
    (∃ a v, i = .peekShadow a ∧ inShadow s.cfg a = true ∧ t.events = s.events ++ [.periphRead a v]) ∨
    (∃ a v h, (i = .pokeRom a v ∨ i = .pokeRamRdport a v ∨ i = .pokeRamGap a v ∨ i = .pokeShadow a v) ∧
      inShadow s.cfg a = true ∧ t.events = s.events ++ [.periphWrite a v h])

/-- What a shadow read returns, records and leaves does not depend on the segment table or on RAM (41_scheme R146). -/
def Obligations.ShadowReadIgnoresTheSegmentTable : Prop :=
  ∀ s t a seg ram k, exec (.peekShadow a) s = .next t →
    exec (.peekShadow a) { s with seg := seg, ram := ram, ramInit := k } =
      .next { t with seg := seg, ram := ram, ramInit := k }

/-- Translation never leaves a store (20_memory R61, R62): a ROM byte lies in the image, a cell in the RAM store. -/
def Obligations.TranslationStaysInsideTheStores : Prop :=
  ∀ c t a,
    (∀ k, resolve c t a = some (.rom k) → k < c.romLen) ∧
    (∀ k, resolve c t a = some (.readPort k) → k < c.ramBanks * c.ramBankSize) ∧
    (∀ k, resolve c t a = some (.writePort k) → k < c.ramBanks * c.ramBankSize)

/-- RAM round trip (40_engine R121, R111): a byte written through the write port of one segment is read back through the
read port of any segment that holds the same bank index. -/
def Obligations.RamRoundTripThroughThePorts : Prop :=
  ∀ s a a' v i j k, StateInv s → Live s →
    WritePasses s.cfg a → AtSegment s.cfg a i (s.cfg.ramWrOff + k) →
    ReadPasses s.cfg a' → AtSegment s.cfg a' j (s.cfg.ramRdOff + k) →
    k < s.cfg.ramBankSize → romBanks s.cfg ≤ s.seg.get i → s.seg.get j = s.seg.get i →
    ∃ t u, exec (.pokeRamWr a v) s = .next t ∧ exec (.peekRamRd a') t = .next u ∧ u.reply = some (.byte v)

/-- A hotspot write, of either hotspot and with any legal bank, is effective before the next transaction (41_scheme R143): the
step that serves it leaves the segment table mapped, whatever transaction comes next; and if that is a read of the target
segment, it returns the byte of the new ROM bank, or, at the read port, the cell of the new RAM bank. -/
def Obligations.HotspotWriteIsEffectiveNext : Prop :=
  ∀ s h v q, StateInv s → Live s → hotspotBank s.cfg h v < romBanks s.cfg + s.cfg.ramBanks →
    s.pending = .bus (busWrite (hotAddr s.cfg h) v) :: q →
    ∃ t, step s = .next t ∧
      t = { s with
        seg := s.seg.set (v >>> 6).toNat (hotspotBank s.cfg h v), pending := q, reply := some (.handled true) } ∧
      ∀ a off rest, q = .bus (busRead a) :: rest → ReadPasses s.cfg a → AtSegment s.cfg a (v >>> 6).toNat off →
        (hotspotBank s.cfg h v < romBanks s.cfg →
          ∃ u, step t = .next u ∧ u.pending = rest ∧
            u.reply = some (.byte (romRead s.cfg (hotspotBank s.cfg h v * s.cfg.segSize + off)))) ∧
        (romBanks s.cfg ≤ hotspotBank s.cfg h v → ∀ k, off = s.cfg.ramRdOff + k → k < s.cfg.ramBankSize →
          ∃ u, step t = .next u ∧ u.pending = rest ∧
            u.reply = some (.byte
              (ramRead s ((hotspotBank s.cfg h v - romBanks s.cfg) * s.cfg.ramBankSize + k))))

/-- Two writes of one value to one hotspot leave the state one write leaves (20_memory R56). -/
def Obligations.HotspotWriteIsIdempotent : Prop :=
  ∀ s t v, Live t →
    (exec (.pokeHota v) s = .next t → exec (.pokeHota v) t = .next t) ∧
    (exec (.pokeHotb v) s = .next t → exec (.pokeHotb v) t = .next t)

/-- Peripheral first for reads, engine first for writes (41_scheme R160): at an address of both the shadow range and a
RAM write port a read asks the peripheral, and a write is kept by the cartridge and never reaches the peripheral. -/
def Obligations.ReadAndWritePriorityDiffer : Prop :=
  ∀ s a v i k, StateInv s → Live s → inShadow s.cfg a = true → AtSegment s.cfg a i (s.cfg.ramWrOff + k) →
    k < s.cfg.ramBankSize → romBanks s.cfg ≤ s.seg.get i →
    decodeTxn s.cfg s.seg (.bus (busRead a)) = .ok (.peekShadow a) ∧
    decodeTxn s.cfg s.seg (.bus (busWrite a v)) = .ok (.pokeRamWr a v) ∧
    (∃ t w, exec (.peekShadow a) s = .next t ∧ t.events = s.events ++ [.periphRead a w] ∧
      t.reply = some (.byte w) ∧ ∀ j, ramRead t j = ramRead s j) ∧
    (∃ t, exec (.pokeRamWr a v) s = .next t ∧ t.events = s.events ∧ t.reply = some (.handled true) ∧
      ramRead t ((s.seg.get i - romBanks s.cfg) * s.cfg.ramBankSize + k) = v)
end

