-- ==== Sys2Proof/Laws/Memory.lean ====
section
/-! SUPPORT. The laws of the stores: a read after a write, the canonical form kept, equal reads make equal lists, and the
image as supplied. -/

namespace Sys2Proof

variable {d : Nat → Byte} {m m' : Memory} {i j k n : Nat} {v b : Byte}

@[simp] theorem Memory.read_nil : Memory.read d [] i = d i := rfl

theorem Memory.read_cons : Memory.read d ((k, b) :: m) i = if i = k then b else Memory.read d m i := rfl

@[simp] theorem Memory.wf_nil : Memory.wf d [] = true := rfl

@[simp] theorem Memory.within_nil : Memory.within n [] = true := rfl

theorem Memory.wf_cons :
    Memory.wf d ((k, b) :: m) = true ↔ b ≠ d k ∧ (∀ c ∈ m, k < c.1) ∧ Memory.wf d m = true := by
  simp [Memory.wf, and_assoc]

theorem Memory.within_iff : Memory.within n m = true ↔ ∀ c ∈ m, c.1 < n := by
  simp [Memory.within]

/-- An offset below every listed one reads as unlisted. -/
theorem Memory.read_below (h : ∀ c ∈ m, i < c.1) : Memory.read d m i = d i := by
  induction m with
  | nil => rfl
  | cons c m ih =>
    have hne : i ≠ c.1 := Nat.ne_of_lt (h c List.mem_cons_self)
    rw [Memory.read, if_neg hne]
    exact ih fun c' hc' => h c' (List.mem_cons_of_mem _ hc')

/-- A read after a write gives the byte written at that offset and the old byte at every other. -/
theorem Memory.read_write (h : Memory.wf d m = true) :
    Memory.read d (Memory.write d m i v) j = if j = i then v else Memory.read d m j := by
  induction m with
  | nil =>
    by_cases hv : v = d i <;> by_cases hj : j = i <;> simp [Memory.write, Memory.read, hv, hj]
  | cons c m ih =>
    obtain ⟨k, b⟩ := c
    obtain ⟨-, hk, hm⟩ := Memory.wf_cons.mp h
    have below : i < k → Memory.read d ((k, b) :: m) i = d i := fun hi =>
      Memory.read_below fun c hc => by
        rcases List.mem_cons.mp hc with rfl | hc
        · exact hi
        · exact hi.trans (hk c hc)
    rw [Memory.write]
    split
    · rename_i hi
      split
      · rename_i hv
        by_cases hj : j = i
        · simp [hj, hv, below hi]
        · simp [hj]
      · simp [Memory.read_cons (k := i)]
    · split
      · rename_i _ hik
        subst hik
        split
        · rename_i hv
          by_cases hj : j = i
          · subst hj; simp [hv, Memory.read_below hk]
          · simp [hj, Memory.read_cons]
        · by_cases hj : j = i <;> simp [hj, Memory.read_cons]
      · rename_i hik
        rw [Memory.read_cons, Memory.read_cons, ih hm]
        by_cases hj : j = i
        · subst hj; simp [hik]
        · simp [hj]

/-- Every entry of a written list is the written one or an old one. -/
theorem Memory.mem_write {c : Host.Cell} (h : c ∈ Memory.write d m i v) : c.1 = i ∨ c ∈ m := by
  induction m with
  | nil =>
    rw [Memory.write] at h
    split at h <;> simp_all
  | cons c' m ih =>
    obtain ⟨k, b⟩ := c'
    rw [Memory.write] at h
    split at h
    · split at h
      · exact .inr h
      · rcases List.mem_cons.mp h with rfl | h
        · exact .inl rfl
        · exact .inr h
    · split at h
      · split at h
        · exact .inr (List.mem_cons_of_mem _ h)
        · rcases List.mem_cons.mp h with rfl | h
          · exact .inl rfl
          · exact .inr (List.mem_cons_of_mem _ h)
      · rcases List.mem_cons.mp h with rfl | h
        · exact .inr List.mem_cons_self
        · exact (ih h).imp id (List.mem_cons_of_mem _)

/-- A write keeps the canonical form. -/
theorem Memory.wf_write (h : Memory.wf d m = true) : Memory.wf d (Memory.write d m i v) = true := by
  induction m with
  | nil =>
    rw [Memory.write]
    split
    · rfl
    · rename_i hv; simp [Memory.wf, hv]
  | cons c m ih =>
    obtain ⟨k, b⟩ := c
    obtain ⟨hb, hk, hm⟩ := Memory.wf_cons.mp h
    rw [Memory.write]
    split
    · rename_i hi
      split
      · exact h
      · rename_i hv
        refine Memory.wf_cons.mpr ⟨hv, fun c hc => ?_, h⟩
        rcases List.mem_cons.mp hc with rfl | hc
        · exact hi
        · exact hi.trans (hk c hc)
    · split
      · rename_i _ hik
        subst hik
        split
        · exact hm
        · rename_i hv
          exact Memory.wf_cons.mpr ⟨hv, hk, hm⟩
      · rename_i hlt hne
        refine Memory.wf_cons.mpr ⟨hb, fun c hc => ?_, ih hm⟩
        rcases Memory.mem_write hc with hc | hc
        · omega
        · exact hk c hc

/-- A write inside the store keeps the list inside it. -/
theorem Memory.within_write (h : Memory.within n m = true) (hi : i < n) :
    Memory.within n (Memory.write d m i v) = true := by
  rw [Memory.within_iff] at h ⊢
  intro c hc
  rcases Memory.mem_write hc with hc | hc
  · omega
  · exact h c hc

/-- Canonical lists that read alike are equal. -/
theorem Memory.ext_of_read (h : Memory.wf d m = true) (h' : Memory.wf d m' = true)
    (hr : ∀ i, Memory.read d m i = Memory.read d m' i) : m = m' := by
  induction m generalizing m' with
  | nil =>
    cases m' with
    | nil => rfl
    | cons c m' =>
      have := hr c.1
      simp only [Memory.read, if_true] at this
      exact absurd this.symm (Memory.wf_cons.mp h').1
  | cons c m ih =>
    obtain ⟨k, b⟩ := c
    obtain ⟨hb, hk, hm⟩ := Memory.wf_cons.mp h
    cases m' with
    | nil =>
      have := hr k
      simp only [Memory.read, if_true] at this
      exact absurd this hb
    | cons c' m' =>
      obtain ⟨k', b'⟩ := c'
      obtain ⟨hb', hk', hm'⟩ := Memory.wf_cons.mp h'
      have hkk : k = k' := by
        rcases Nat.lt_trichotomy k k' with hlt | heq | hgt
        · have h1 := hr k
          rw [Memory.read_below (m := (k', b') :: m')] at h1
          · simp only [Memory.read, if_true] at h1
            exact absurd h1 hb
          · intro c hc
            rcases List.mem_cons.mp hc with rfl | hc
            · exact hlt
            · exact hlt.trans (hk' c hc)
        · exact heq
        · have h1 := hr k'
          rw [Memory.read_below (m := (k, b) :: m)] at h1
          · simp only [Memory.read, if_true] at h1
            exact absurd h1.symm hb'
          · intro c hc
            rcases List.mem_cons.mp hc with rfl | hc
            · exact hgt
            · exact hgt.trans (hk c hc)
      subst hkk
      have hbb : b = b' := by simpa [Memory.read] using hr k
      subst hbb
      rw [ih hm hm' fun i => ?_]
      by_cases hi : i = k
      · subst hi; rw [Memory.read_below hk, Memory.read_below hk']
      · simpa [Memory.read, hi] using hr i

/-- Every entry of the list of a byte sequence lies at or after its start and before its end. -/
theorem Memory.mem_ofBytes {bs : List Byte} {c : Host.Cell} (h : c ∈ Memory.ofBytes d i bs) :
    i ≤ c.1 ∧ c.1 < i + bs.length := by
  induction bs generalizing i with
  | nil => simp [Memory.ofBytes] at h
  | cons b bs ih =>
    rw [Memory.ofBytes] at h
    simp only [List.length_cons]
    split at h
    · have := ih h; omega
    · rcases List.mem_cons.mp h with rfl | h
      · simp
      · have := ih h; omega

theorem Memory.wf_ofBytes {bs : List Byte} : Memory.wf d (Memory.ofBytes d i bs) = true := by
  induction bs generalizing i with
  | nil => rfl
  | cons b bs ih =>
    rw [Memory.ofBytes]
    split
    · exact ih
    · rename_i hb
      exact Memory.wf_cons.mpr ⟨hb, fun c hc => by have := Memory.mem_ofBytes hc; omega, ih⟩

theorem Memory.within_ofBytes {bs : List Byte} : Memory.within bs.length (Memory.ofBytes d 0 bs) = true :=
  Memory.within_iff.mpr fun c hc => by have := Memory.mem_ofBytes hc; omega

/-- The list of a byte sequence reads as the sequence. -/
theorem Memory.read_ofBytes {bs : List Byte} (h : j < bs.length) :
    Memory.read d (Memory.ofBytes d i bs) (i + j) = bs[j] := by
  induction bs generalizing i j with
  | nil => simp at h
  | cons b bs ih =>
    have tail : ∀ c ∈ Memory.ofBytes d (i + 1) bs, i < c.1 := fun c hc => by
      have := Memory.mem_ofBytes hc; omega
    rw [Memory.ofBytes]
    cases j with
    | zero =>
      split
      · rename_i hb; simp [Memory.read_below tail, hb]
      · simp [Memory.read]
    | succ j =>
      have hj : j < bs.length := by simpa using h
      have hij : i + (j + 1) = i + 1 + j := by omega
      have ih' := ih (i := i + 1) hj
      split
      · rw [hij, ih']; simp
      · have hne : ¬i + 1 + j = i := by omega
        rw [hij, Memory.read_cons, if_neg hne, ih']
        simp

/-- A sequence of unlisted bytes lists nothing. -/
theorem Memory.ofBytes_replicate (h : ∀ j, d j = b) : Memory.ofBytes d i (List.replicate n b) = [] := by
  induction n generalizing i with
  | zero => rfl
  | succ n ih => rw [List.replicate_succ, Memory.ofBytes, if_pos (h i).symm]; exact ih

end Sys2Proof
end

