-- ==== Sys2Proof/Laws/Operands.lean ====
section
/-! SUPPORT. The laws of address classes, the segment table, segment translation and hotspot values. -/

namespace Sys2Proof.Machine

variable {c : Config} {t : SegTable} {a : Addr} {i j b off k : Nat}

/-- Reading a segment-table entry after setting one. -/
theorem SegTable.get_set (hi : i < 4) (hj : j < 4) : (t.set i b).get j = if j = i then b else t.get j := by
  match i, hi, j, hj with
  | 0, _, 0, _ | 0, _, 1, _ | 0, _, 2, _ | 0, _, 3, _ => rfl
  | 1, _, 0, _ | 1, _, 1, _ | 1, _, 2, _ | 1, _, 3, _ => rfl
  | 2, _, 0, _ | 2, _, 1, _ | 2, _, 2, _ | 2, _, 3, _ => rfl
  | 3, _, 0, _ | 3, _, 1, _ | 3, _, 2, _ | 3, _, 3, _ => rfl

theorem SegTable.get_set_self (hi : i < 4) : (t.set i b).get i = b := by
  simp [SegTable.get_set hi hi]

/-- Setting an entry to the value it holds changes nothing (40_engine R110). -/
theorem SegTable.set_get (hi : i < 4) : t.set i (t.get i) = t := by
  match i, hi with
  | 0, _ | 1, _ | 2, _ | 3, _ => rfl

theorem SegTable.set_set : (t.set i b).set i b = t.set i b := by
  match i with
  | 0 | 1 | 2 | 3 | (_ + 4) => rfl

/-- Two tables with equal entries are equal. -/
theorem SegTable.ext_of_get {u : SegTable} (h : ∀ i, i < 4 → t.get i = u.get i) : t = u := by
  have h0 := h 0 (by omega)
  have h1 := h 1 (by omega)
  have h2 := h 2 (by omega)
  have h3 := h 3 (by omega)
  cases t; cases u
  simp only [SegTable.get] at h0 h1 h2 h3
  subst h0; subst h1; subst h2; subst h3; rfl

theorem isRom_iff : isRom c b = true ↔ b < romBanks c := by simp [isRom]

theorem isRam_iff : isRam c b = true ↔ romBanks c ≤ b ∧ b < bankCount c := by simp [isRam]

theorem isRam_eq_false_of_isRom (h : isRom c b = true) : isRam c b = false := by
  rw [isRom_iff] at h
  simp [isRam]; omega

theorem isRom_eq_false_of_isRam (h : isRam c b = true) : isRom c b = false := by
  rw [isRam_iff] at h
  simp [isRom]; omega

/-- A legal index is exactly one of the two (10_state R26). -/
theorem isRom_or_isRam (h : b < bankCount c) : isRom c b = true ∨ isRam c b = true := by
  rw [isRom_iff, isRam_iff]; omega

theorem inWindow_of_inShadow (h : inShadow c a = true) : inWindow c a = true := by
  simp only [inShadow, Bool.and_eq_true] at h; exact h.1

theorem inSegRegion_iff :
    inSegRegion c a = true ↔ c.segBase.toNat ≤ a.toNat ∧ a.toNat < c.segBase.toNat + 4 * c.segSize := by
  rw [inSegRegion, decide_eq_true_eq, segCount]

theorem segSize_pos_of_inSegRegion (h : inSegRegion c a = true) : 0 < c.segSize := by
  rw [inSegRegion_iff] at h; omega

/-- Segment decode gives a segment that exists and an offset inside it (20_memory R60). -/
theorem segDecode_lt (h : inSegRegion c a = true) :
    (segDecode c a).1 < 4 ∧ (segDecode c a).2 < c.segSize := by
  have hpos := segSize_pos_of_inSegRegion h
  rw [inSegRegion_iff] at h
  refine ⟨?_, Nat.mod_lt _ hpos⟩
  simp only [segDecode]
  rw [Nat.div_lt_iff_lt_mul hpos]; omega

/-- Segment number and offset give the address back. -/
theorem segDecode_addr (h : inSegRegion c a = true) :
    a.toNat = c.segBase.toNat + (segDecode c a).1 * c.segSize + (segDecode c a).2 := by
  rw [inSegRegion_iff] at h
  have := Nat.div_add_mod (a.toNat - c.segBase.toNat) c.segSize
  simp only [segDecode]
  rw [Nat.mul_comm] at this
  omega

/-- The address of segment `i` and offset `off` decodes to them. -/
theorem segDecode_eq (hoff : off < c.segSize) (h : a.toNat = c.segBase.toNat + i * c.segSize + off) :
    segDecode c a = (i, off) := by
  have hsub : a.toNat - c.segBase.toNat = off + c.segSize * i := by
    rw [h, Nat.mul_comm]; omega
  have hpos : 0 < c.segSize := by omega
  simp only [segDecode, hsub]
  rw [Nat.add_mul_div_left _ _ hpos, Nat.div_eq_of_lt hoff, Nat.add_mul_mod_self_left,
    Nat.mod_eq_of_lt hoff]
  simp

theorem inSegRegion_of_eq (hi : i < 4) (hoff : off < c.segSize)
    (h : a.toNat = c.segBase.toNat + i * c.segSize + off) : inSegRegion c a = true := by
  rw [inSegRegion_iff]
  have : (i + 1) * c.segSize ≤ 4 * c.segSize := Nat.mul_le_mul_right _ hi
  rw [Nat.succ_mul] at this
  omega

theorem inSegRegion_of_at (h : AtSegment c a i off) : inSegRegion c a = true :=
  inSegRegion_of_eq h.1 h.2.1 h.2.2

theorem segDecode_of_at (h : AtSegment c a i off) : segDecode c a = (i, off) := segDecode_eq h.2.1 h.2.2

/-- Every address of the segment region is some offset of some segment. -/
theorem at_of_inSegRegion (h : inSegRegion c a = true) :
    AtSegment c a (segDecode c a).1 (segDecode c a).2 :=
  ⟨(segDecode_lt h).1, (segDecode_lt h).2, segDecode_addr h⟩

theorem portOf_read (h : portOf c off = .read k) : k < c.ramBankSize ∧ off = c.ramRdOff + k := by
  unfold portOf at h
  split at h
  · cases h; omega
  · split at h <;> cases h

theorem portOf_write (h : portOf c off = .write k) : k < c.ramBankSize ∧ off = c.ramWrOff + k := by
  unfold portOf at h
  split at h
  · cases h
  · split at h
    · cases h; omega
    · cases h

theorem portOf_gap (h : portOf c off = .gap) :
    ¬(c.ramRdOff ≤ off ∧ off < c.ramRdOff + c.ramBankSize) ∧
      ¬(c.ramWrOff ≤ off ∧ off < c.ramWrOff + c.ramBankSize) := by
  unfold portOf at h
  split at h
  · cases h
  · split at h
    · cases h
    · exact ⟨‹_›, ‹_›⟩

/-- A ROM bank's bytes lie inside the image (20_memory R61). -/
theorem rom_index_lt (hb : isRom c b = true) (hoff : off < c.segSize) : b * c.segSize + off < c.romLen := by
  rw [isRom_iff] at hb
  have h1 : (b + 1) * c.segSize ≤ romBanks c * c.segSize := Nat.mul_le_mul_right _ hb
  have h2 : romBanks c * c.segSize ≤ c.romLen := Nat.div_mul_le_self _ _
  rw [Nat.succ_mul] at h1
  omega

/-- A RAM bank's cells lie inside the store (10_state R30, 20_memory R62). -/
theorem ram_index_lt (hb : isRam c b = true) (hk : k < c.ramBankSize) :
    (b - romBanks c) * c.ramBankSize + k < ramLen c := by
  rw [isRam_iff] at hb
  have hr : b - romBanks c + 1 ≤ c.ramBanks := by unfold bankCount at hb; omega
  have h1 : (b - romBanks c + 1) * c.ramBankSize ≤ c.ramBanks * c.ramBankSize := Nat.mul_le_mul_right _ hr
  rw [Nat.succ_mul] at h1
  unfold ramLen
  omega

/-- What a bank index can resolve to (30_encoding R89): the one place that says it. -/
theorem bankTarget_cases {x : Target} (h : bankTarget c b off = some x) :
    (isRom c b = true ∧ x = .rom (b * c.segSize + off)) ∨
    (isRam c b = true ∧ ∃ k, portOf c off = .read k ∧ x = .readPort ((b - romBanks c) * c.ramBankSize + k)) ∨
    (isRam c b = true ∧ ∃ k, portOf c off = .write k ∧ x = .writePort ((b - romBanks c) * c.ramBankSize + k)) ∨
    (isRam c b = true ∧ portOf c off = .gap ∧ x = .gap) := by
  unfold bankTarget at h
  split at h
  · rename_i hr; cases h; exact .inl ⟨hr, rfl⟩
  · split at h
    · rename_i hr
      split at h
      · rename_i k hp; cases h; exact .inr (.inl ⟨hr, k, hp, rfl⟩)
      · rename_i k hp; cases h; exact .inr (.inr (.inl ⟨hr, k, hp, rfl⟩))
      · rename_i hp; cases h; exact .inr (.inr (.inr ⟨hr, hp, rfl⟩))
    · cases h

theorem bankTarget_rom (h : isRom c b = true) : bankTarget c b off = some (.rom (b * c.segSize + off)) := by
  simp [bankTarget, h]

theorem bankTarget_ram (h : isRam c b = true) :
    bankTarget c b off = match portOf c off with
      | .read k => some (.readPort ((b - romBanks c) * c.ramBankSize + k))
      | .write k => some (.writePort ((b - romBanks c) * c.ramBankSize + k))
      | .gap => some .gap := by
  have hr := isRom_eq_false_of_isRam h
  cases hp : portOf c off <;> simp [bankTarget, h, hr, hp]

/-- A legal bank index resolves at every offset (30_encoding R94). -/
theorem bankTarget_isSome (h : b < bankCount c) : (bankTarget c b off).isSome = true := by
  rcases isRom_or_isRam h with h | h
  · simp [bankTarget_rom h]
  · rw [bankTarget_ram h]; cases portOf c off <;> rfl

theorem resolve_eq (h : inSegRegion c a = true) :
    resolve c t a = bankTarget c (t.get (segDecode c a).1) (segDecode c a).2 := by
  simp [resolve, h]

theorem inSegRegion_of_resolve {x : Target} (h : resolve c t a = some x) : inSegRegion c a = true := by
  unfold resolve at h
  split at h
  · assumption
  · cases h

theorem readTarget_eq (h : readsSegment c a = true) :
    readTarget c t a = bankTarget c (t.get (segDecode c a).1) (segDecode c a).2 := by
  simp only [readsSegment, Bool.and_eq_true] at h
  rw [readTarget, if_pos (by simp [h.1.1.1, h.1.1.2, h.1.2]), resolve_eq h.2]

theorem writeTarget_eq (h : writesSegment c a = true) :
    writeTarget c t a = bankTarget c (t.get (segDecode c a).1) (segDecode c a).2 := by
  simp only [writesSegment, Bool.and_eq_true] at h
  rw [writeTarget, if_pos (by simp [h.1.1, h.1.2]), resolve_eq h.2]

theorem resolve_at (h : AtSegment c a i off) : resolve c t a = bankTarget c (t.get i) off := by
  rw [resolve_eq (inSegRegion_of_at h), segDecode_of_at h]

/-- The target of a read that passes, at its segment and offset. -/
theorem readTarget_at (hp : ReadPasses c a) (h : AtSegment c a i off) :
    readTarget c t a = bankTarget c (t.get i) off := by
  rw [readTarget_eq (by simp [readsSegment, hp.1, hp.2.1, hp.2.2, inSegRegion_of_at h]), segDecode_of_at h]

/-- The target of a write that passes, at its segment and offset. -/
theorem writeTarget_at (hp : WritePasses c a) (h : AtSegment c a i off) :
    writeTarget c t a = bankTarget c (t.get i) off := by
  rw [writeTarget_eq (by simp [writesSegment, hp.1, hp.2, inSegRegion_of_at h]), segDecode_of_at h]

/-- Offset `k` of the read port. -/
theorem portOf_rdOff (hk : k < c.ramBankSize) : portOf c (c.ramRdOff + k) = .read k := by
  rw [portOf, if_pos (by omega)]; simp

/-- Offset `k` of the write port, the ports being disjoint. -/
theorem portOf_wrOff (hk : k < c.ramBankSize)
    (hd : c.ramRdOff + c.ramBankSize ≤ c.ramWrOff ∨ c.ramWrOff + c.ramBankSize ≤ c.ramRdOff) :
    portOf c (c.ramWrOff + k) = .write k := by
  rw [portOf, if_neg (by omega), if_pos (by omega)]; simp

theorem readTarget_some {x : Target} (h : readTarget c t a = some x) :
    readsSegment c a = true ∧ resolve c t a = some x := by
  unfold readTarget at h
  split at h
  · rename_i hc
    refine ⟨?_, h⟩
    rw [readsSegment, hc, inSegRegion_of_resolve h]; rfl
  · cases h

theorem writeTarget_some {x : Target} (h : writeTarget c t a = some x) :
    writesSegment c a = true ∧ resolve c t a = some x := by
  unfold writeTarget at h
  split at h
  · rename_i hc
    refine ⟨?_, h⟩
    rw [writesSegment, hc, inSegRegion_of_resolve h]; rfl
  · cases h

/-- The cell a port of the segment region names lies inside the RAM store. -/
theorem writePort_lt (h : resolve c t a = some (.writePort i)) : i < ramLen c := by
  rw [resolve_eq (inSegRegion_of_resolve h)] at h
  rcases bankTarget_cases h with ⟨-, h⟩ | ⟨-, k, -, h⟩ | ⟨hb, k, hp, h⟩ | ⟨-, -, h⟩ <;> cases h
  exact ram_index_lt hb (portOf_write hp).1

/-- A hotspot value names a segment that exists (60_exceptions R181). -/
theorem hsvSeg_lt (v : Byte) : hsvSeg v < 4 := by
  have := v.isLt
  simp only [hsvSeg, segFieldShift]
  omega

theorem hsvBank_lt (v : Byte) : hsvBank v < 64 := Nat.mod_lt _ (by decide)

/-- The segment field is `V >> 6` (30_encoding R84). -/
theorem hsvSeg_eq : ∀ v : Byte, hsvSeg v = (v >>> 6).toNat := by decide

/-- The bank field is `V & 0b111111` (30_encoding R84). -/
theorem hsvBank_eq : ∀ v : Byte, hsvBank v = (v &&& 0x3F#8).toNat := by decide

/-- The value a pseudo-operation writes holds its fields (30_encoding R96). -/
theorem hsv_selValue : ∀ (seg : BitVec 2) (n : BitVec 6),
    hsvSeg (selValue seg n) = seg.toNat ∧ hsvBank (selValue seg n) = n.toNat := by
  decide

end Sys2Proof.Machine
end

