-- ==== Sys2Proof/Laws/State.lean ====
section
/-! SUPPORT. What each named operation does to each field of the state, so that no later proof unfolds a record update. -/

namespace Sys2Proof.Machine

@[simp] theorem answer_cfg (r : Reply) (s : State) : (answer r s).cfg = s.cfg := rfl
@[simp] theorem answer_seg (r : Reply) (s : State) : (answer r s).seg = s.seg := rfl
@[simp] theorem answer_ram (r : Reply) (s : State) : (answer r s).ram = s.ram := rfl
@[simp] theorem answer_fault (r : Reply) (s : State) : (answer r s).fault = s.fault := rfl
@[simp] theorem answer_refused (r : Reply) (s : State) : (answer r s).refused = s.refused := rfl
@[simp] theorem answer_events (r : Reply) (s : State) : (answer r s).events = s.events := rfl
@[simp] theorem answer_pending (r : Reply) (s : State) : (answer r s).pending = s.pending := rfl
@[simp] theorem answer_reply (r : Reply) (s : State) : (answer r s).reply = some r := rfl
@[simp] theorem answer_draws (r : Reply) (s : State) : (answer r s).draws = s.draws := rfl
@[simp] theorem answer_ramInit (r : Reply) (s : State) : (answer r s).ramInit = s.ramInit := rfl

@[simp] theorem done_cfg (s : State) : (done s).cfg = s.cfg := rfl
@[simp] theorem done_seg (s : State) : (done s).seg = s.seg := rfl
@[simp] theorem done_ram (s : State) : (done s).ram = s.ram := rfl
@[simp] theorem done_fault (s : State) : (done s).fault = s.fault := rfl
@[simp] theorem done_refused (s : State) : (done s).refused = s.refused := rfl
@[simp] theorem done_events (s : State) : (done s).events = s.events := rfl
@[simp] theorem done_pending (s : State) : (done s).pending = s.pending := rfl
@[simp] theorem done_reply (s : State) : (done s).reply = none := rfl
@[simp] theorem done_draws (s : State) : (done s).draws = s.draws := rfl
@[simp] theorem done_ramInit (s : State) : (done s).ramInit = s.ramInit := rfl

@[simp] theorem raise_cfg (r : FaultRec) (s : State) : (raise r s).cfg = s.cfg := rfl
@[simp] theorem raise_seg (r : FaultRec) (s : State) : (raise r s).seg = s.seg := rfl
@[simp] theorem raise_ram (r : FaultRec) (s : State) : (raise r s).ram = s.ram := rfl
@[simp] theorem raise_fault (r : FaultRec) (s : State) : (raise r s).fault = some r := rfl
@[simp] theorem raise_refused (r : FaultRec) (s : State) : (raise r s).refused = s.refused := rfl
@[simp] theorem raise_events (r : FaultRec) (s : State) : (raise r s).events = s.events := rfl
@[simp] theorem raise_pending (r : FaultRec) (s : State) : (raise r s).pending = s.pending := rfl
@[simp] theorem raise_reply (r : FaultRec) (s : State) : (raise r s).reply = none := rfl
@[simp] theorem raise_draws (r : FaultRec) (s : State) : (raise r s).draws = s.draws := rfl
@[simp] theorem raise_ramInit (r : FaultRec) (s : State) : (raise r s).ramInit = s.ramInit := rfl

@[simp] theorem refuse_cfg (r : RefusalRec) (s : State) : (refuse r s).cfg = s.cfg := rfl
@[simp] theorem refuse_seg (r : RefusalRec) (s : State) : (refuse r s).seg = s.seg := rfl
@[simp] theorem refuse_ram (r : RefusalRec) (s : State) : (refuse r s).ram = s.ram := rfl
@[simp] theorem refuse_fault (r : RefusalRec) (s : State) : (refuse r s).fault = s.fault := rfl
@[simp] theorem refuse_refused (r : RefusalRec) (s : State) : (refuse r s).refused = some r := rfl
@[simp] theorem refuse_events (r : RefusalRec) (s : State) : (refuse r s).events = s.events := rfl
@[simp] theorem refuse_pending (r : RefusalRec) (s : State) : (refuse r s).pending = s.pending := rfl
@[simp] theorem refuse_reply (r : RefusalRec) (s : State) : (refuse r s).reply = none := rfl
@[simp] theorem refuse_draws (r : RefusalRec) (s : State) : (refuse r s).draws = s.draws := rfl
@[simp] theorem refuse_ramInit (r : RefusalRec) (s : State) : (refuse r s).ramInit = s.ramInit := rfl

@[simp] theorem ramWrite_cfg (i : Nat) (v : Byte) (s : State) : (ramWrite i v s).cfg = s.cfg := rfl
@[simp] theorem ramWrite_seg (i : Nat) (v : Byte) (s : State) : (ramWrite i v s).seg = s.seg := rfl
@[simp] theorem ramWrite_ram (i : Nat) (v : Byte) (s : State) : (ramWrite i v s).ram = Memory.write (Config.freeRam s.ramInit) s.ram i v := rfl
@[simp] theorem ramWrite_fault (i : Nat) (v : Byte) (s : State) : (ramWrite i v s).fault = s.fault := rfl
@[simp] theorem ramWrite_refused (i : Nat) (v : Byte) (s : State) : (ramWrite i v s).refused = s.refused := rfl
@[simp] theorem ramWrite_events (i : Nat) (v : Byte) (s : State) : (ramWrite i v s).events = s.events := rfl
@[simp] theorem ramWrite_pending (i : Nat) (v : Byte) (s : State) : (ramWrite i v s).pending = s.pending := rfl
@[simp] theorem ramWrite_reply (i : Nat) (v : Byte) (s : State) : (ramWrite i v s).reply = s.reply := rfl
@[simp] theorem ramWrite_draws (i : Nat) (v : Byte) (s : State) : (ramWrite i v s).draws = s.draws := rfl
@[simp] theorem ramWrite_ramInit (i : Nat) (v : Byte) (s : State) : (ramWrite i v s).ramInit = s.ramInit := rfl

@[simp] theorem ramDraw_cfg (s : State) : (ramDraw s).cfg = s.cfg := rfl
@[simp] theorem ramDraw_seg (s : State) : (ramDraw s).seg = s.seg := rfl
@[simp] theorem ramDraw_ram (s : State) : (ramDraw s).ram = [] := rfl
@[simp] theorem ramDraw_fault (s : State) : (ramDraw s).fault = s.fault := rfl
@[simp] theorem ramDraw_refused (s : State) : (ramDraw s).refused = s.refused := rfl
@[simp] theorem ramDraw_events (s : State) : (ramDraw s).events = s.events := rfl
@[simp] theorem ramDraw_pending (s : State) : (ramDraw s).pending = s.pending := rfl
@[simp] theorem ramDraw_reply (s : State) : (ramDraw s).reply = s.reply := rfl
@[simp] theorem ramDraw_draws (s : State) : (ramDraw s).draws = s.draws + 1 := rfl
@[simp] theorem ramDraw_ramInit (s : State) : (ramDraw s).ramInit = s.draws := rfl

@[simp] theorem drawn_cfg (s : State) : (drawn s).cfg = s.cfg := rfl
@[simp] theorem drawn_seg (s : State) : (drawn s).seg = s.seg := rfl
@[simp] theorem drawn_ram (s : State) : (drawn s).ram = s.ram := rfl
@[simp] theorem drawn_fault (s : State) : (drawn s).fault = s.fault := rfl
@[simp] theorem drawn_refused (s : State) : (drawn s).refused = s.refused := rfl
@[simp] theorem drawn_events (s : State) : (drawn s).events = s.events := rfl
@[simp] theorem drawn_pending (s : State) : (drawn s).pending = s.pending := rfl
@[simp] theorem drawn_reply (s : State) : (drawn s).reply = s.reply := rfl
@[simp] theorem drawn_draws (s : State) : (drawn s).draws = s.draws + 1 := rfl
@[simp] theorem drawn_ramInit (s : State) : (drawn s).ramInit = s.ramInit := rfl

@[simp] theorem record_cfg (e : Event) (s : State) : (record e s).cfg = s.cfg := rfl
@[simp] theorem record_seg (e : Event) (s : State) : (record e s).seg = s.seg := rfl
@[simp] theorem record_ram (e : Event) (s : State) : (record e s).ram = s.ram := rfl
@[simp] theorem record_fault (e : Event) (s : State) : (record e s).fault = s.fault := rfl
@[simp] theorem record_refused (e : Event) (s : State) : (record e s).refused = s.refused := rfl
@[simp] theorem record_events (e : Event) (s : State) : (record e s).events = s.events ++ [e] := rfl
@[simp] theorem record_pending (e : Event) (s : State) : (record e s).pending = s.pending := rfl
@[simp] theorem record_reply (e : Event) (s : State) : (record e s).reply = s.reply := rfl
@[simp] theorem record_draws (e : Event) (s : State) : (record e s).draws = s.draws := rfl
@[simp] theorem record_ramInit (e : Event) (s : State) : (record e s).ramInit = s.ramInit := rfl

@[simp] theorem periphRead_cfg (a : Addr) (s : State) : (periphRead a s).cfg = s.cfg := rfl
@[simp] theorem periphRead_seg (a : Addr) (s : State) : (periphRead a s).seg = s.seg := rfl
@[simp] theorem periphRead_ram (a : Addr) (s : State) : (periphRead a s).ram = s.ram := rfl
@[simp] theorem periphRead_fault (a : Addr) (s : State) : (periphRead a s).fault = s.fault := rfl
@[simp] theorem periphRead_refused (a : Addr) (s : State) : (periphRead a s).refused = s.refused := rfl
@[simp] theorem periphRead_events (a : Addr) (s : State) : (periphRead a s).events = s.events ++ [.periphRead a (nextByte s)] := rfl
@[simp] theorem periphRead_pending (a : Addr) (s : State) : (periphRead a s).pending = s.pending := rfl
@[simp] theorem periphRead_reply (a : Addr) (s : State) : (periphRead a s).reply = some (.byte (nextByte s)) := rfl
@[simp] theorem periphRead_draws (a : Addr) (s : State) : (periphRead a s).draws = s.draws + 1 := rfl
@[simp] theorem periphRead_ramInit (a : Addr) (s : State) : (periphRead a s).ramInit = s.ramInit := rfl

@[simp] theorem periphWrite_cfg (a : Addr) (v : Byte) (s : State) : (periphWrite a v s).cfg = s.cfg := rfl
@[simp] theorem periphWrite_seg (a : Addr) (v : Byte) (s : State) : (periphWrite a v s).seg = s.seg := rfl
@[simp] theorem periphWrite_ram (a : Addr) (v : Byte) (s : State) : (periphWrite a v s).ram = s.ram := rfl
@[simp] theorem periphWrite_fault (a : Addr) (v : Byte) (s : State) : (periphWrite a v s).fault = s.fault := rfl
@[simp] theorem periphWrite_refused (a : Addr) (v : Byte) (s : State) : (periphWrite a v s).refused = s.refused := rfl
@[simp] theorem periphWrite_events (a : Addr) (v : Byte) (s : State) : (periphWrite a v s).events = s.events ++ [.periphWrite a v (nextBool s)] := rfl
@[simp] theorem periphWrite_pending (a : Addr) (v : Byte) (s : State) : (periphWrite a v s).pending = s.pending := rfl
@[simp] theorem periphWrite_reply (a : Addr) (v : Byte) (s : State) : (periphWrite a v s).reply = some (.handled (nextBool s)) := rfl
@[simp] theorem periphWrite_draws (a : Addr) (v : Byte) (s : State) : (periphWrite a v s).draws = s.draws + 1 := rfl
@[simp] theorem periphWrite_ramInit (a : Addr) (v : Byte) (s : State) : (periphWrite a v s).ramInit = s.ramInit := rfl

@[simp] theorem setSeg_cfg (i b : Nat) (s : State) : (setSeg i b s).cfg = s.cfg := rfl
@[simp] theorem setSeg_seg (i b : Nat) (s : State) : (setSeg i b s).seg = s.seg.set i b := rfl
@[simp] theorem setSeg_ram (i b : Nat) (s : State) : (setSeg i b s).ram = s.ram := rfl
@[simp] theorem setSeg_fault (i b : Nat) (s : State) : (setSeg i b s).fault = s.fault := rfl
@[simp] theorem setSeg_refused (i b : Nat) (s : State) : (setSeg i b s).refused = s.refused := rfl
@[simp] theorem setSeg_events (i b : Nat) (s : State) : (setSeg i b s).events = s.events := rfl
@[simp] theorem setSeg_pending (i b : Nat) (s : State) : (setSeg i b s).pending = s.pending := rfl
@[simp] theorem setSeg_reply (i b : Nat) (s : State) : (setSeg i b s).reply = s.reply := rfl
@[simp] theorem setSeg_draws (i b : Nat) (s : State) : (setSeg i b s).draws = s.draws := rfl
@[simp] theorem setSeg_ramInit (i b : Nat) (s : State) : (setSeg i b s).ramInit = s.ramInit := rfl

end Sys2Proof.Machine
end

