-- ==== Sys2Proof/Laws/Ops.lean ====
section
/-! SUPPORT. What each shared operation can do, said once. -/

namespace Sys2Proof.Machine

variable {s t : State} {k : Out} {b i j : Nat} {v : Byte} {a : Addr}

theorem whenLive_of_live (h : Live s) : whenLive s k = k := by
  simp [whenLive, h.1, h.2]

theorem whenLive_of_fault {r : FaultRec} (h : s.fault = some r) : whenLive s k = .fault (.halted r) := by
  simp [whenLive, h]

theorem whenLive_of_refused {r : RefusalRec} (hf : s.fault = none) (h : s.refused = some r) :
    whenLive s k = .refused (.halted r) := by
  simp [whenLive, hf, h]

/-- A guarded operation that answers a next state ran at a live machine. -/
theorem whenLive_next (h : whenLive s k = .next t) : Live s ∧ k = .next t := by
  unfold whenLive at h
  split at h
  · cases h
  · split at h
    · cases h
    · exact ⟨⟨‹_›, ‹_›⟩, h⟩

/-- A guarded operation refuses either as a halted machine or by its own body. -/
theorem whenLive_refused {r : Refusal} (h : whenLive s k = .refused r) :
    (∃ q, r = .halted q) ∨ (Live s ∧ k = .refused r) := by
  unfold whenLive at h
  split at h
  · cases h
  · split at h
    · cases h; exact .inl ⟨_, rfl⟩
    · exact .inr ⟨⟨‹_›, ‹_›⟩, h⟩

/-- `Ram[j]` after `Ram[i] <- v`. -/
theorem ramRead_ramWrite (h : Memory.wf (Config.freeRam s.ramInit) s.ram = true) :
    ramRead (ramWrite i v s) j = if j = i then v else ramRead s j :=
  Memory.read_write h

theorem mapThen_ok {f : State → Out} (hi : i < 4) (hb : b < bankCount s.cfg) :
    mapThen b i s f = f (setSeg i b s) := by
  have h1 : ¬segCount ≤ i := by unfold segCount; omega
  have h2 : ¬bankCount s.cfg ≤ b := by omega
  simp [mapThen, mapBank, h1, h2]

theorem mapThen_segment {f : State → Out} (hi : 4 ≤ i) :
    mapThen b i s f = .next (raise (.segmentOutOfRange b i) s) := by
  have h1 : segCount ≤ i := hi
  simp [mapThen, mapBank, h1]

theorem mapThen_bank {f : State → Out} (hi : i < 4) (hb : bankCount s.cfg ≤ b) :
    mapThen b i s f = .next (raise (.bankOutOfRange b i) s) := by
  have h1 : ¬segCount ≤ i := by unfold segCount; omega
  simp [mapThen, mapBank, h1, hb]

/-- Everything `map` can do inside an operation (40_engine R110). -/
theorem mapThen_cases (f : State → Out) (b i : Nat) (s : State) :
    (i < 4 ∧ b < bankCount s.cfg ∧ mapThen b i s f = f (setSeg i b s)) ∨
    (4 ≤ i ∧ mapThen b i s f = .next (raise (.segmentOutOfRange b i) s)) ∨
    (i < 4 ∧ bankCount s.cfg ≤ b ∧ mapThen b i s f = .next (raise (.bankOutOfRange b i) s)) := by
  by_cases hi : i < 4
  · by_cases hb : b < bankCount s.cfg
    · exact .inl ⟨hi, hb, mapThen_ok hi hb⟩
    · exact .inr (.inr ⟨hi, by omega, mapThen_bank hi (by omega)⟩)
  · exact .inr (.inl ⟨by omega, mapThen_segment (by omega)⟩)

/-- A bank draw is a ROM bank (70_reset_and_hazards R202). -/
theorem nextBank_lt (h : 1 ≤ romBanks s.cfg) : nextBank s < romBanks s.cfg := by
  have := (Config.freeBelow (romBanks s.cfg - 1) s.draws).isLt
  unfold nextBank
  omega

/-- The segment table a reset leaves, from the draw count it starts at. -/
def resetSeg (s : State) : SegTable :=
  { s0 := nextBank s
    s1 := nextBank (drawn s)
    s2 := nextBank (drawn (drawn s))
    s3 := s.cfg.startBank }

theorem mapDrawn_ok {f : State → Out} (hi : i < 4) (h : 1 ≤ romBanks s.cfg) :
    mapDrawn i s f = f (setSeg i (nextBank s) (drawn s)) :=
  mapThen_ok hi ((nextBank_lt h).trans_le (Nat.le_add_right _ _))

/-- `reset` with a ROM bank and a start bank among them (70_reset_and_hazards R202): no fault can occur. -/
theorem resetBody_eq (h : 1 ≤ romBanks s.cfg) (hs : s.cfg.startBank < romBanks s.cfg) :
    resetBody s = .next
      { s with
        seg := resetSeg s
        ram := []
        reply := none
        draws := s.draws + 4
        ramInit := s.draws + 3 } := by
  unfold resetBody
  rw [mapDrawn_ok, mapDrawn_ok, mapDrawn_ok, mapThen_ok]
  · rfl
  · omega
  · exact hs.trans_le (Nat.le_add_right _ _)
  all_goals first | exact h | omega

theorem resetSeg_lt (h : 1 ≤ romBanks s.cfg) (hs : s.cfg.startBank < romBanks s.cfg) :
    ∀ i, (resetSeg s).get i < romBanks s.cfg := by
  intro i
  match i with
  | 0 => exact nextBank_lt h
  | 1 => exact nextBank_lt (s := drawn s) h
  | 2 => exact nextBank_lt (s := drawn (drawn s)) h
  | _ + 3 => exact hs

/-- What a reset does not touch. -/
def KeptByReset (s t : State) : Prop :=
  t.cfg = s.cfg ∧ t.events = s.events ∧ t.refused = s.refused ∧ t.pending = s.pending

theorem mapThen_kept {f : State → Out} (hf : ∀ x, KeptByReset s x → f x = .next t → KeptByReset s t)
    {x : State} (hx : KeptByReset s x) (h : mapThen b i x f = .next t) : KeptByReset s t := by
  rcases mapThen_cases f b i x with ⟨-, -, e⟩ | ⟨-, e⟩ | ⟨-, -, e⟩ <;> rw [e] at h
  · exact hf (setSeg i b x) hx h
  all_goals cases h; exact hx

/-- Whatever the configuration, a reset that answers leaves these as they were. -/
theorem resetBody_next (h : resetBody s = .next t) : KeptByReset s t := by
  refine mapThen_kept (fun x hx => ?_) (show KeptByReset s (drawn s) from ⟨rfl, rfl, rfl, rfl⟩) h
  refine mapThen_kept (fun x hx => ?_) (show KeptByReset s (drawn x) from hx)
  refine mapThen_kept (fun x hx => ?_) (show KeptByReset s (drawn x) from hx)
  refine mapThen_kept (fun x hx h => ?_) hx
  cases h
  exact hx

/-- The end of an unhandled write: ignored, or forwarded in the shadow range (41_scheme R156). -/
theorem unhandled_cases (a : Addr) (v : Byte) (s : State) :
    (inShadow s.cfg a = true ∧ unhandled a v s = periphWrite a v s) ∨
    (inShadow s.cfg a = false ∧ unhandled a v s = answer (.handled false) s) := by
  cases h : inShadow s.cfg a
  · exact .inr ⟨rfl, by simp [unhandled, h, handledResult]⟩
  · exact .inl ⟨rfl, by simp [unhandled, h]⟩

/-- What a write-port read does to the store: the cell kept, or overwritten (40_engine R116). -/
theorem disturb_cases (i : Nat) (s : State) :
    disturb i s = drawn (drawn s) ∨ ∃ w, disturb i s = drawn (ramWrite i w (drawn s)) := by
  unfold disturb
  split
  · exact .inr ⟨_, rfl⟩
  · exact .inl rfl

end Sys2Proof.Machine
end

