-- ==== Sys2Proof/Laws/Exec.lean ====
section
/-! SUPPORT. What each row can do when it answers a next state, one lemma per row: claims over all rows cite these
instead of unfolding the meanings. -/

namespace Sys2Proof.Machine

variable {s t : State} {a : Addr} {v : Byte} {b j : Nat}

/-- Everything a Hotspot A write can do: map, or fault F1 (41_scheme R153). -/
theorem writeHotA_next (h : writeHotA v s = .next t) :
    (hsvBank v < bankCount s.cfg ∧ t = answer (.handled true) (setSeg (hsvSeg v) (hsvBank v) s)) ∨
    (bankCount s.cfg ≤ hsvBank v ∧ t = raise (.bankOutOfRange (hsvBank v) (hsvSeg v)) s) := by
  have hs := hsvSeg_lt v
  unfold writeHotA at h
  rcases mapThen_cases _ (hsvBank v) (hsvSeg v) s with ⟨-, hb, e⟩ | ⟨hi, -⟩ | ⟨-, hb, e⟩
  · rw [e] at h; cases h; exact .inl ⟨hb, rfl⟩
  · omega
  · rw [e] at h; cases h; exact .inr ⟨hb, rfl⟩

/-- Everything a Hotspot B write can do: map, or fault F1 (41_scheme R154). -/
theorem writeHotB_next (h : writeHotB v s = .next t) :
    (hsvBank v < s.cfg.ramBanks ∧
      t = answer (.handled true) (setSeg (hsvSeg v) (hsvBank v + romBanks s.cfg) s)) ∨
    (s.cfg.ramBanks ≤ hsvBank v ∧
      t = raise (.bankOutOfRange (hsvBank v + romBanks s.cfg) (hsvSeg v)) s) := by
  have hs := hsvSeg_lt v
  unfold writeHotB at h
  rcases mapThen_cases _ (hsvBank v + romBanks s.cfg) (hsvSeg v) s with ⟨-, hb, e⟩ | ⟨hi, -⟩ | ⟨-, hb, e⟩
  · rw [e] at h; cases h; exact .inl ⟨by unfold bankCount at hb; omega, rfl⟩
  · omega
  · rw [e] at h; cases h; exact .inr ⟨by unfold bankCount at hb; omega, rfl⟩

/-- All `PEEK.SHADOW` can do (41_scheme R146). -/
theorem execPeekShadow_next (h : execPeekShadow a s = .next t) :
    Live s ∧ inShadow s.cfg a = true ∧ t = periphRead a s := by
  obtain ⟨hl, h⟩ := whenLive_next h
  split at h
  · rename_i hc
    cases h
    exact ⟨hl, hc, rfl⟩
  · cases h

/-- All `PEEK.HOT` can do (41_scheme R147). -/
theorem execPeekHot_next {x : Hotspot} (h : execPeekHot x s = .next t) :
    Live s ∧ (inWindow s.cfg (hotAddr s.cfg x) && !inShadow s.cfg (hotAddr s.cfg x)) = true ∧
      t = refuse (.hotspotRead (hotAddr s.cfg x)) s := by
  obtain ⟨hl, h⟩ := whenLive_next h
  split at h
  · rename_i hc
    cases h
    exact ⟨hl, hc, rfl⟩
  · cases h

/-- All `PEEK.ROM` can do (40_engine R114). -/
theorem execPeekRom_next (h : execPeekRom a s = .next t) :
    Live s ∧ ∃ i, readTarget s.cfg s.seg a = some (.rom i) ∧ t = answer (.byte (romRead s.cfg i)) s := by
  obtain ⟨hl, h⟩ := whenLive_next h
  split at h
  · rename_i hc
    cases h
    exact ⟨hl, _, hc, rfl⟩
  · cases h

/-- All `PEEK.RAM.RD` can do (40_engine R115). -/
theorem execPeekRamRd_next (h : execPeekRamRd a s = .next t) :
    Live s ∧ ∃ i, readTarget s.cfg s.seg a = some (.readPort i) ∧ t = answer (.byte (ramRead s i)) s := by
  obtain ⟨hl, h⟩ := whenLive_next h
  split at h
  · rename_i hc
    cases h
    exact ⟨hl, _, hc, rfl⟩
  · cases h

/-- All `PEEK.RAM.WRPORT` can do (40_engine R116). -/
theorem execPeekRamWrport_next (h : execPeekRamWrport a s = .next t) :
    Live s ∧ ∃ i, readTarget s.cfg s.seg a = some (.writePort i) ∧
      t = disturb i (drawn (answer (.byte (nextByte s)) s)) := by
  obtain ⟨hl, h⟩ := whenLive_next h
  split at h
  · rename_i hc
    cases h
    exact ⟨hl, _, hc, rfl⟩
  · cases h

/-- All `PEEK.RAM.GAP` can do (40_engine R117). -/
theorem execPeekRamGap_next (h : execPeekRamGap a s = .next t) :
    Live s ∧ readTarget s.cfg s.seg a = some .gap ∧ t = drawn (answer (.byte (nextByte s)) s) := by
  obtain ⟨hl, h⟩ := whenLive_next h
  split at h
  · rename_i hc
    cases h
    exact ⟨hl, hc, rfl⟩
  · cases h

/-- All `PEEK.OOW` can do (41_scheme R145). -/
theorem execPeekOow_next (h : execPeekOow a s = .next t) :
    Live s ∧ inWindow s.cfg a = false ∧ t = refuse (.outOfWindow a .read) s := by
  obtain ⟨hl, h⟩ := whenLive_next h
  split at h
  · cases h
  · rename_i hc
    cases h
    exact ⟨hl, by simpa using hc, rfl⟩

/-- All `POKE.HOTA` can do (41_scheme R153), see `writeHotA_next`. -/
theorem execPokeHota_next (h : execPokeHota v s = .next t) :
    Live s ∧ hotASelected s.cfg = true ∧ writeHotA v s = .next t := by
  obtain ⟨hl, h⟩ := whenLive_next h
  split at h
  · rename_i hc
    exact ⟨hl, hc, h⟩
  · cases h

/-- All `POKE.HOTB` can do (41_scheme R154), see `writeHotB_next`. -/
theorem execPokeHotb_next (h : execPokeHotb v s = .next t) :
    Live s ∧ hotBSelected s.cfg = true ∧ writeHotB v s = .next t := by
  obtain ⟨hl, h⟩ := whenLive_next h
  split at h
  · rename_i hc
    exact ⟨hl, hc, h⟩
  · cases h

/-- All `POKE.ROM` can do (40_engine R122). -/
theorem execPokeRom_next (h : execPokeRom a v s = .next t) :
    Live s ∧ ∃ i, writeTarget s.cfg s.seg a = some (.rom i) ∧ t = unhandled a v s := by
  obtain ⟨hl, h⟩ := whenLive_next h
  split at h
  · rename_i hc
    cases h
    exact ⟨hl, _, hc, rfl⟩
  · cases h

/-- All `POKE.RAM.WR` can do (40_engine R121). -/
theorem execPokeRamWr_next (h : execPokeRamWr a v s = .next t) :
    Live s ∧ ∃ i, writeTarget s.cfg s.seg a = some (.writePort i) ∧
      t = answer (.handled true) (ramWrite i v s) := by
  obtain ⟨hl, h⟩ := whenLive_next h
  split at h
  · rename_i hc
    cases h
    exact ⟨hl, _, hc, rfl⟩
  · cases h

/-- All `POKE.RAM.RDPORT` can do (40_engine R123). -/
theorem execPokeRamRdport_next (h : execPokeRamRdport a v s = .next t) :
    Live s ∧ ∃ i, writeTarget s.cfg s.seg a = some (.readPort i) ∧ t = unhandled a v s := by
  obtain ⟨hl, h⟩ := whenLive_next h
  split at h
  · rename_i hc
    cases h
    exact ⟨hl, _, hc, rfl⟩
  · cases h

/-- All `POKE.RAM.GAP` can do (40_engine R124). -/
theorem execPokeRamGap_next (h : execPokeRamGap a v s = .next t) :
    Live s ∧ writeTarget s.cfg s.seg a = some .gap ∧ t = unhandled a v s := by
  obtain ⟨hl, h⟩ := whenLive_next h
  split at h
  · rename_i hc
    cases h
    exact ⟨hl, hc, rfl⟩
  · cases h

/-- All `POKE.SHADOW` can do (41_scheme R157). -/
theorem execPokeShadow_next (h : execPokeShadow a v s = .next t) :
    Live s ∧ (inShadow s.cfg a && !isHot s.cfg a && !engineHandles s.cfg s.seg a) = true ∧
      t = periphWrite a v s := by
  obtain ⟨hl, h⟩ := whenLive_next h
  split at h
  · rename_i hc
    cases h
    exact ⟨hl, hc, rfl⟩
  · cases h

/-- All `POKE.OOW` can do (41_scheme R155). -/
theorem execPokeOow_next (h : execPokeOow a v s = .next t) :
    Live s ∧ inWindow s.cfg a = false ∧ t = refuse (.outOfWindow a .write) s := by
  obtain ⟨hl, h⟩ := whenLive_next h
  split at h
  · cases h
  · rename_i hc
    cases h
    exact ⟨hl, by simpa using hc, rfl⟩

/-- All `SELROM` can do (30_encoding R96). -/
theorem execSelrom_next {x : BitVec 2} {y : BitVec 6} (h : execSelrom x y s = .next t) :
    Live s ∧ hotASelected s.cfg = true ∧ writeHotA (selValue x y) s = .next t := by
  obtain ⟨hl, h⟩ := whenLive_next h
  split at h
  · rename_i hc
    exact ⟨hl, hc, h⟩
  · cases h

/-- All `SELRAM` can do (30_encoding R96). -/
theorem execSelram_next {x : BitVec 2} {y : BitVec 6} (h : execSelram x y s = .next t) :
    Live s ∧ hotBSelected s.cfg = true ∧ writeHotB (selValue x y) s = .next t := by
  obtain ⟨hl, h⟩ := whenLive_next h
  split at h
  · rename_i hc
    exact ⟨hl, hc, h⟩
  · cases h

/-- All `RESET` can do (70_reset_and_hazards R202), see `resetBody_eq`. -/
theorem execReset_next (h : execReset s = .next t) : Live s ∧ resetBody s = .next t := whenLive_next h

/-- All `MAP` can do (40_engine R110). -/
theorem execMap_next (h : execMap b j s = .next t) :
    Live s ∧
      ((j < 4 ∧ b < bankCount s.cfg ∧ t = done (setSeg j b s)) ∨
       (4 ≤ j ∧ t = raise (.segmentOutOfRange b j) s) ∨
       (j < 4 ∧ bankCount s.cfg ≤ b ∧ t = raise (.bankOutOfRange b j) s)) := by
  obtain ⟨hl, h⟩ := whenLive_next h
  refine ⟨hl, ?_⟩
  rcases mapThen_cases (fun s => .next (done s)) b j s with ⟨hj, hb, e⟩ | ⟨hj, e⟩ | ⟨hj, hb, e⟩ <;>
    rw [e] at h <;> cases h
  · exact .inl ⟨hj, hb, rfl⟩
  · exact .inr (.inl ⟨hj, rfl⟩)
  · exact .inr (.inr ⟨hj, hb, rfl⟩)

/-- All `CONSTRUCT` can do when it makes a machine (70_reset_and_hazards R200). -/
theorem execConstruct_next {image : List Byte} {p : Params} (h : execConstruct image p s = .next t) :
    paramsInRange p = true ∧ checkConfig (makeConfig image p) = none ∧
      resetBody (freshState (makeConfig image p) s) = .next t := by
  unfold execConstruct at h
  split at h
  · cases h
  · rename_i hp
    split at h
    · cases h
    · exact ⟨by simpa using hp, ‹_›, h⟩

end Sys2Proof.Machine
end

