-- ==== Sys2Proof/Laws/Control.lean ====
section
/-! SUPPORT. The scans of the construction checks, and the configuration of `State.reset` against 00_scope R11. -/

namespace Sys2Proof.Machine

variable {p : Addr → Bool} {k : Nat} {a : Addr} {c : Config}

/-- The scan finds nothing exactly where no address of its range has the property. -/
theorem firstAddr_none (hk : k ≤ addrCount) :
    firstAddr p k = none ↔ ∀ a : Addr, addrCount - k ≤ a.toNat → p a = false := by
  unfold addrCount at *
  induction k with
  | zero =>
    simp only [firstAddr, true_iff]
    intro a ha
    have := a.isLt
    omega
  | succ k ih =>
    have key : ∀ a : Addr, 0x10000 - (k + 1) ≤ a.toNat ↔
        a = BitVec.ofNat 16 (0x10000 - (k + 1)) ∨ 0x10000 - k ≤ a.toNat := by
      intro a
      have := a.isLt
      rw [BitVec.toNat_eq]
      simp only [BitVec.toNat_ofNat]
      omega
    unfold firstAddr addrCount
    split
    · rename_i hp
      simp only [reduceCtorEq, false_iff]
      intro h
      rw [h _ ((key _).mpr (.inl rfl))] at hp
      cases hp
    · rename_i hp
      rw [ih (by omega)]
      refine ⟨fun h a ha => ?_, fun h a ha => h a ((key a).mpr (.inr ha))⟩
      rcases (key a).mp ha with rfl | ha
      · simpa using hp
      · exact h a ha

/-- The scan finds the lowest address with the property. -/
theorem firstAddr_some (hk : k ≤ addrCount) (h : firstAddr p k = some a) :
    p a = true ∧ ∀ b : Addr, addrCount - k ≤ b.toNat → b.toNat < a.toNat → p b = false := by
  unfold addrCount at *
  induction k with
  | zero => cases h
  | succ k ih =>
    unfold firstAddr addrCount at h
    split at h
    · rename_i hp
      cases h
      refine ⟨hp, fun b hb hlt => ?_⟩
      simp only [BitVec.toNat_ofNat] at hlt
      omega
    · rename_i hp
      obtain ⟨h1, h2⟩ := ih (by omega) h
      refine ⟨h1, fun b hb hlt => ?_⟩
      by_cases hb' : 0x10000 - k ≤ b.toNat
      · exact h2 b hb' hlt
      · have hbe : b = BitVec.ofNat 16 (0x10000 - (k + 1)) := by
          rw [BitVec.toNat_eq]
          simp only [BitVec.toNat_ofNat]
          omega
        rw [hbe]
        simpa using hp

/-- The whole scan finds nothing exactly where no address has the property. -/
theorem firstAddr_all_none : firstAddr p addrCount = none ↔ ∀ a, p a = false := by
  rw [firstAddr_none (Nat.le_refl _)]
  simp

/-- The whole scan finds the lowest of all addresses with the property. -/
theorem firstAddr_all_some (h : firstAddr p addrCount = some a) :
    p a = true ∧ ∀ b : Addr, b.toNat < a.toNat → p b = false := by
  obtain ⟨h1, h2⟩ := firstAddr_some (Nat.le_refl _) h
  exact ⟨h1, fun b hb => h2 b (by omega) hb⟩

/-- The range check of `SEG_SIZE` is the spec's "power of two" (00_scope R10). -/
theorem pow2_iff {n : Nat} : 2 ^ n.log2 = n ↔ ∃ k, n = 2 ^ k :=
  ⟨fun h => ⟨_, h.symm⟩, fun ⟨k, h⟩ => by rw [h, Nat.log2_two_pow]⟩

theorem unclassed_false : unclassed c a = false ↔
    (inWindow c a = true → inShadow c a = true ∨ isHot c a = true ∨ inSegRegion c a = true) := by
  cases h1 : inWindow c a <;> cases h2 : inShadow c a <;> cases h3 : isHot c a <;> cases h4 : inSegRegion c a <;>
    simp [unclassed, h1, h2, h3, h4]

theorem strayRegion_false : strayRegion c a = false ↔ (inSegRegion c a = true → inWindow c a = true) := by
  cases h1 : inWindow c a <;> cases h2 : inSegRegion c a <;> simp [strayRegion, h1, h2]

/-! The address classes of the default configuration (20_memory R57). -/

theorem inSegRegion_default : inSegRegion defaultConfig a = true ↔ 0x1000 ≤ a.toNat ∧ a.toNat < 0x2000 := by
  rw [inSegRegion_iff]; rfl

theorem inWindow_default : inWindow defaultConfig a = true ↔
    a.toNat < 0x40 ∨ (0x1000 ≤ a.toNat ∧ a.toNat < 0x2000) := by
  simp [inWindow, defaultConfig, defaultParams]

theorem isHot_default : isHot defaultConfig a = true ↔ a.toNat = 0x3F ∨ a.toNat = 0x3E := by
  simp [isHot, defaultConfig, defaultParams, BitVec.toNat_eq]

theorem inShadow_default : inShadow defaultConfig a = true ↔ a.toNat < 0x3E := by
  rw [inShadow, Bool.and_eq_true, inWindow_default, decide_eq_true_eq]
  have : defaultConfig.shadowLimit.toNat = 0x3E := rfl
  omega

/-- The default configuration meets 00_scope R10 and R11 (R12). -/
theorem defaultConfig_valid : ValidConfig defaultConfig where
  segSizePow2 := ⟨10, rfl⟩
  ramBankSizePos := by decide
  wholeBanks := by decide
  romBanksRange := by decide
  ramBanksRange := by decide
  regionFits := by decide
  regionInWindow := fun a h => by
    rw [inSegRegion_default] at h
    rw [inWindow_default]
    exact .inr h
  hotsDiffer := by decide
  hotAInWindow := by decide
  hotBInWindow := by decide
  shadowBelow := by decide
  classed := fun a h => by
    rw [inWindow_default] at h
    rw [inShadow_default, isHot_default, inSegRegion_default]
    omega
  rdPortInside := by decide
  wrPortInside := by decide
  portsDisjoint := by decide
  startBankRange := by decide

end Sys2Proof.Machine
end

