-- ==== Sys2Proof/Laws/Decode.lean ====
section
/-! SUPPORT. The fields of a BUS word, and what decode can answer. -/

namespace Sys2Proof

open Machine

variable {c : Config} {t : SegTable} {a : Addr} {v : Byte} {w : BusWord} {i : Instr} {x : Txn}

theorem busRead_toNat (a : Addr) : (busRead a).toNat = a.toNat * 256 := by
  have := a.isLt
  simp only [busRead, BitVec.toNat_ofNat]
  omega

theorem busWrite_toNat (a : Addr) (v : Byte) : (busWrite a v).toNat = 16777216 + a.toNat * 256 + v.toNat := by
  have := a.isLt
  have := v.isLt
  simp only [busWrite, BitVec.toNat_ofNat]
  omega

theorem wordW_eq (w : BusWord) : wordW w = decide (16777216 ≤ w.toNat) := by
  simp [wordW, BitVec.msb_eq_decide]

theorem wordA_toNat (w : BusWord) : (wordA w).toNat = w.toNat / 256 % 65536 := by
  simp [wordA, Nat.shiftRight_eq_div_pow]

theorem wordD_toNat (w : BusWord) : (wordD w).toNat = w.toNat % 256 := by
  simp [wordD]

@[simp] theorem wordW_busRead (a : Addr) : wordW (busRead a) = false := by
  have := a.isLt
  rw [wordW_eq, busRead_toNat, decide_eq_false_iff_not]
  omega

@[simp] theorem wordA_busRead (a : Addr) : wordA (busRead a) = a := by
  have := a.isLt
  apply BitVec.eq_of_toNat_eq
  rw [wordA_toNat, busRead_toNat]
  omega

@[simp] theorem wordW_busWrite (a : Addr) (v : Byte) : wordW (busWrite a v) = true := by
  rw [wordW_eq, busWrite_toNat, decide_eq_true_eq]
  omega

@[simp] theorem wordA_busWrite (a : Addr) (v : Byte) : wordA (busWrite a v) = a := by
  have := a.isLt
  have := v.isLt
  apply BitVec.eq_of_toNat_eq
  rw [wordA_toNat, busWrite_toNat]
  omega

@[simp] theorem wordD_busWrite (a : Addr) (v : Byte) : wordD (busWrite a v) = v := by
  have := v.isLt
  apply BitVec.eq_of_toNat_eq
  rw [wordD_toNat, busWrite_toNat]
  omega

@[simp] theorem decodeBus_busRead : decodeBus c t (busRead a) = decodeRead c t a := by
  simp [decodeBus]

@[simp] theorem decodeBus_busWrite : decodeBus c t (busWrite a v) = decodeWrite c t a v := by
  simp [decodeBus]

/-- Everything the decode of a read can answer (30_encoding R87, R89). -/
theorem decodeRead_cases (h : decodeRead c t a = .ok i) :
    (inWindow c a = false ∧ i = .peekOow a) ∨
    (inShadow c a = true ∧ i = .peekShadow a) ∨
    (inWindow c a = true ∧ inShadow c a = false ∧ ∃ x, hotAddr c x = a ∧ (x = .a ∨ c.hotA ≠ c.hotB) ∧ i = .peekHot x) ∨
    ((∃ k, readTarget c t a = some (.rom k)) ∧ i = .peekRom a) ∨
    ((∃ k, readTarget c t a = some (.readPort k)) ∧ i = .peekRamRd a) ∨
    ((∃ k, readTarget c t a = some (.writePort k)) ∧ i = .peekRamWrport a) ∨
    (readTarget c t a = some .gap ∧ i = .peekRamGap a) := by
  unfold decodeRead at h
  split at h
  · rename_i hw; cases h; exact .inl ⟨by simpa using hw, rfl⟩
  rename_i hw
  replace hw : inWindow c a = true := by simpa using hw
  split at h
  · rename_i hs; cases h; exact .inr (.inl ⟨hs, rfl⟩)
  rename_i hs
  replace hs : inShadow c a = false := by simpa using hs
  split at h
  · rename_i ha; cases h; exact .inr (.inr (.inl ⟨hw, hs, .a, ha.symm, .inl rfl, rfl⟩))
  split at h
  · rename_i ha hb
    cases h
    exact .inr (.inr (.inl ⟨hw, hs, .b, hb.symm, .inr fun e => ha (hb.trans e.symm), rfl⟩))
  rename_i ha hb
  have hr : readTarget c t a = resolve c t a := by simp [readTarget, hw, hs, isHot, ha, hb]
  rw [← hr] at h
  split at h <;> cases h
  · exact .inr (.inr (.inr (.inl ⟨⟨_, ‹_›⟩, rfl⟩)))
  · exact .inr (.inr (.inr (.inr (.inl ⟨⟨_, ‹_›⟩, rfl⟩))))
  · exact .inr (.inr (.inr (.inr (.inr (.inl ⟨⟨_, ‹_›⟩, rfl⟩)))))
  · exact .inr (.inr (.inr (.inr (.inr (.inr ⟨‹_›, rfl⟩)))))

/-- Everything the decode of a write can answer (30_encoding R88, R89). -/
theorem decodeWrite_cases (h : decodeWrite c t a v = .ok i) :
    (inWindow c a = false ∧ i = .pokeOow a v) ∨
    (inWindow c a = true ∧ a = c.hotA ∧ i = .pokeHota v) ∨
    (inWindow c a = true ∧ a = c.hotB ∧ c.hotA ≠ c.hotB ∧ i = .pokeHotb v) ∨
    ((∃ k, writeTarget c t a = some (.rom k)) ∧ i = .pokeRom a v) ∨
    ((∃ k, writeTarget c t a = some (.readPort k)) ∧ i = .pokeRamRdport a v) ∨
    ((∃ k, writeTarget c t a = some (.writePort k)) ∧ i = .pokeRamWr a v) ∨
    (writeTarget c t a = some .gap ∧ i = .pokeRamGap a v) ∨
    (inShadow c a = true ∧ isHot c a = false ∧ inSegRegion c a = false ∧ i = .pokeShadow a v) := by
  unfold decodeWrite at h
  split at h
  · rename_i hw; cases h; exact .inl ⟨by simpa using hw, rfl⟩
  rename_i hw
  replace hw : inWindow c a = true := by simpa using hw
  split at h
  · rename_i ha; cases h; exact .inr (.inl ⟨hw, ha, rfl⟩)
  split at h
  · rename_i ha hb
    cases h
    exact .inr (.inr (.inl ⟨hw, hb, fun e => ha (hb.trans e.symm), rfl⟩))
  rename_i ha hb
  have hh : isHot c a = false := by simp [isHot, ha, hb]
  split at h
  · have hr : writeTarget c t a = resolve c t a := by simp [writeTarget, hw, hh]
    rw [← hr] at h
    split at h <;> cases h
    · exact .inr (.inr (.inr (.inl ⟨⟨_, ‹_›⟩, rfl⟩)))
    · exact .inr (.inr (.inr (.inr (.inl ⟨⟨_, ‹_›⟩, rfl⟩))))
    · exact .inr (.inr (.inr (.inr (.inr (.inl ⟨⟨_, ‹_›⟩, rfl⟩)))))
    · exact .inr (.inr (.inr (.inr (.inr (.inr (.inl ⟨‹_›, rfl⟩))))))
  · rename_i hg
    split at h <;> cases h
    exact .inr (.inr (.inr (.inr (.inr (.inr (.inr ⟨‹_›, hh, by simpa using hg, rfl⟩))))))

/-- A read of the shadow range decodes as such whatever else its address is (30_encoding R87). -/
theorem decodeRead_shadow (h : inShadow c a = true) : decodeRead c t a = .ok (.peekShadow a) := by
  simp [decodeRead, inWindow_of_inShadow h, h]

/-- A read that passes takes the row of its target (30_encoding R89). -/
theorem decodeRead_at {k off : Nat} (hp : ReadPasses c a) (h : AtSegment c a k off) :
    decodeRead c t a =
      match bankTarget c (t.get k) off with
      | some (.rom _) => .ok (.peekRom a)
      | some (.readPort _) => .ok (.peekRamRd a)
      | some (.writePort _) => .ok (.peekRamWrport a)
      | some .gap => .ok (.peekRamGap a)
      | none => .error (.noRow a) := by
  have hh := hp.2.2
  simp only [isHot, Bool.or_eq_false_iff, decide_eq_false_iff_not] at hh
  rw [← resolve_at h]
  unfold decodeRead
  rcases resolve c t a with _ | (_ | _ | _ | _) <;> simp [hp.1, hp.2.1, hh]

/-- A write that passes takes the row of its target (30_encoding R89). -/
theorem decodeWrite_at {k off : Nat} (hp : WritePasses c a) (h : AtSegment c a k off) :
    decodeWrite c t a v =
      match bankTarget c (t.get k) off with
      | some (.rom _) => .ok (.pokeRom a v)
      | some (.readPort _) => .ok (.pokeRamRdport a v)
      | some (.writePort _) => .ok (.pokeRamWr a v)
      | some .gap => .ok (.pokeRamGap a v)
      | none => .error (.noRow a) := by
  have hh := hp.2
  simp only [isHot, Bool.or_eq_false_iff, decide_eq_false_iff_not] at hh
  rw [← resolve_at h]
  unfold decodeWrite
  rcases resolve c t a with _ | (_ | _ | _ | _) <;> simp [hp.1, hh, inSegRegion_of_at h]

/-- A BUS word decodes as a read or as a write of its fields. -/
theorem decodeBus_cases (w : BusWord) :
    (wordW w = false ∧ decodeBus c t w = decodeRead c t (wordA w)) ∨
    (wordW w = true ∧ decodeBus c t w = decodeWrite c t (wordA w) (wordD w)) := by
  cases h : wordW w
  · exact .inl ⟨rfl, by simp [decodeBus, h]⟩
  · exact .inr ⟨rfl, by simp [decodeBus, h]⟩

end Sys2Proof
end

