-- ==== Sys2Proof/Laws/Step.lean ====
section
/-! SUPPORT. What one step can do, said once: nothing pending, or the decoded operation. -/

namespace Sys2Proof.Machine

variable {s t : State} {x : Txn} {rest : List Txn} {i : Instr}

/-- Everything a step that answers a next state can do. -/
theorem step_next (h : step s = .next t) :
    Live s ∧
      ((s.pending = [] ∧ t = s) ∨
       ∃ x rest i, s.pending = x :: rest ∧ decodeTxn s.cfg s.seg x = .ok i ∧
         exec i { s with pending := rest } = .next t) := by
  obtain ⟨hl, h⟩ := whenLive_next h
  refine ⟨hl, ?_⟩
  split at h
  · cases h; exact .inl ⟨‹_›, rfl⟩
  · split at h
    · exact .inr ⟨_, _, _, ‹_›, ‹_›, h⟩
    · cases h

/-- A live machine with a transaction that decodes runs it. -/
theorem step_of_decode (hl : Live s) (hp : s.pending = x :: rest) (hd : decodeTxn s.cfg s.seg x = .ok i) :
    step s = exec i { s with pending := rest } := by
  unfold step
  rw [whenLive_of_live hl, hp]
  simp only [hd]

/-- Decode never answers an internal operation (30_encoding R80). -/
theorem decodeTxn_isTransaction (h : decodeTxn s.cfg s.seg x = .ok i) : i.isTransaction = true := by
  cases x with
  | reset => cases h; rfl
  | bus w =>
    have h' : decodeBus s.cfg s.seg w = .ok i := h
    rcases decodeBus_cases (c := s.cfg) (t := s.seg) w with ⟨-, e⟩ | ⟨-, e⟩ <;> rw [e] at h'
    · rcases decodeRead_cases h' with ⟨-, e⟩ | ⟨-, e⟩ | ⟨-, -, _, -, -, e⟩ | ⟨-, e⟩ | ⟨-, e⟩ | ⟨-, e⟩ | ⟨-, e⟩ <;>
        subst e <;> rfl
    · rcases decodeWrite_cases h' with ⟨-, e⟩ | ⟨-, -, e⟩ | ⟨-, -, -, e⟩ | ⟨-, e⟩ | ⟨-, e⟩ | ⟨-, e⟩ | ⟨-, e⟩ |
        ⟨-, -, -, e⟩ <;> subst e <;> rfl

end Sys2Proof.Machine
end

