-- ==== Sys2Proof/Laws/Effects.lean ====
section
/-! SUPPORT. Everything a transaction can do when it answers a next state, as ten shapes. Claims over all transactions split
over these instead of over the rows. -/

namespace Sys2Proof.Machine

/-- The engine's rows that take no write (40_engine R122 to R124). -/
def isUnwritable (i : Instr) (a : Addr) (v : Byte) : Prop :=
  i = .pokeRom a v ∨ i = .pokeRamRdport a v ∨ i = .pokeRamGap a v

/-- The hotspot writes under all their names, with the value written. -/
def isHotspotWrite (i : Instr) (v : Byte) : Prop :=
  i = .pokeHota v ∨ i = .pokeHotb v ∨
    ∃ seg n, v = selValue seg n ∧ (i = .selrom seg n ∨ i = .selram seg n)

/-- The effect of a transaction on the state. -/
inductive Effect (s : State) : Instr → State → Prop where
  /-- A read that changes no store: a ROM byte, a RAM cell, or a free byte. -/
  | readByte (i : Instr) (b : Byte) (n : Nat) (hn : s.draws ≤ n)
      (hi : ∃ a, i = .peekRom a ∨ i = .peekRamRd a ∨ i = .peekRamGap a) :
      Effect s i { s with reply := some (.byte b), draws := n }
  /-- A write-port read that keeps the cell. -/
  | kept (a : Addr) (b : Byte) (n : Nat) (hn : s.draws ≤ n) :
      Effect s (.peekRamWrport a) { s with reply := some (.byte b), draws := n }
  /-- A write-port read that overwrites the cell. -/
  | disturbed (a : Addr) (b w : Byte) (k n : Nat) (hn : s.draws ≤ n)
      (ht : readTarget s.cfg s.seg a = some (.writePort k)) :
      Effect s (.peekRamWrport a) { ramWrite k w s with reply := some (.byte b), draws := n }
  /-- A read of the peripheral. -/
  | asked (a : Addr) (hs : inShadow s.cfg a = true) : Effect s (.peekShadow a) (periphRead a s)
  /-- A refusal. -/
  | refused (i : Instr) (r : RefusalRec)
      (hi : (∃ h, i = .peekHot h) ∨ (∃ a, i = .peekOow a) ∨ ∃ a v, i = .pokeOow a v) :
      Effect s i (refuse r s)
  /-- A hotspot write that maps. -/
  | mapped (i : Instr) (v : Byte) (b : Nat) (hi : isHotspotWrite i v) (hb : b < bankCount s.cfg) :
      Effect s i (answer (.handled true) (setSeg (hsvSeg v) b s))
  /-- A hotspot write that faults. -/
  | faulted (i : Instr) (v : Byte) (b : Nat) (hi : isHotspotWrite i v) (hb : bankCount s.cfg ≤ b) :
      Effect s i (raise (.bankOutOfRange b (hsvSeg v)) s)
  /-- A write-port write. -/
  | stored (a : Addr) (v : Byte) (k : Nat) (ht : writeTarget s.cfg s.seg a = some (.writePort k)) :
      Effect s (.pokeRamWr a v) (answer (.handled true) (ramWrite k v s))
  /-- A write nothing takes, outside the shadow range. -/
  | ignored (i : Instr) (a : Addr) (v : Byte) (hi : isUnwritable i a v) (hs : inShadow s.cfg a = false) :
      Effect s i (answer (.handled false) s)
  /-- A write the peripheral is given. -/
  | forwarded (i : Instr) (a : Addr) (v : Byte) (hi : isUnwritable i a v ∨ i = .pokeShadow a v)
      (hs : inShadow s.cfg a = true) : Effect s i (periphWrite a v s)
  /-- A reset. -/
  | reset (t : State) (h : resetBody s = .next t) : Effect s .reset t

variable {s t : State} {i : Instr} {a : Addr} {v : Byte}

theorem effect_unhandled (hi : isUnwritable i a v) : Effect s i (unhandled a v s) := by
  rcases unhandled_cases a v s with ⟨hs, e⟩ | ⟨hs, e⟩ <;> rw [e]
  · exact .forwarded i a v (.inl hi) hs
  · exact .ignored i a v hi hs

theorem effect_hotA (hi : isHotspotWrite i v) (h : writeHotA v s = .next t) : Effect s i t := by
  rcases writeHotA_next h with ⟨hb, rfl⟩ | ⟨hb, rfl⟩
  · exact .mapped i v _ hi hb
  · exact .faulted i v _ hi hb

theorem effect_hotB (hi : isHotspotWrite i v) (h : writeHotB v s = .next t) : Effect s i t := by
  rcases writeHotB_next h with ⟨hb, rfl⟩ | ⟨hb, rfl⟩
  · exact .mapped i v _ hi (by unfold bankCount; omega)
  · exact .faulted i v _ hi (by unfold bankCount; omega)

theorem effect_wrport {k : Nat} (ht : readTarget s.cfg s.seg a = some (.writePort k)) :
    Effect s (.peekRamWrport a) (disturb k (drawn (answer (.byte (nextByte s)) s))) := by
  rcases disturb_cases k (drawn (answer (.byte (nextByte s)) s)) with e | ⟨w, e⟩ <;> rw [e]
  · exact .kept a _ _ (Nat.le_add_right s.draws 3)
  · exact .disturbed a _ w k _ (Nat.le_add_right s.draws 3) ht

/-- A transaction that answers a next state ran at an unmarked machine and had one of the ten effects. -/
theorem exec_effect (hi : i.isTransaction = true) (h : exec i s = .next t) : Live s ∧ Effect s i t := by
  cases i with
  | peekShadow a => obtain ⟨hl, hs, rfl⟩ := execPeekShadow_next h; exact ⟨hl, .asked a hs⟩
  | peekHot h' => obtain ⟨hl, -, rfl⟩ := execPeekHot_next h; exact ⟨hl, .refused _ _ (.inl ⟨_, rfl⟩)⟩
  | peekRom a =>
    obtain ⟨hl, _, -, rfl⟩ := execPeekRom_next h
    exact ⟨hl, .readByte _ _ s.draws (Nat.le_refl _) ⟨a, .inl rfl⟩⟩
  | peekRamRd a =>
    obtain ⟨hl, _, -, rfl⟩ := execPeekRamRd_next h
    exact ⟨hl, .readByte _ _ s.draws (Nat.le_refl _) ⟨a, .inr (.inl rfl)⟩⟩
  | peekRamWrport a => obtain ⟨hl, _, ht, rfl⟩ := execPeekRamWrport_next h; exact ⟨hl, effect_wrport ht⟩
  | peekRamGap a =>
    obtain ⟨hl, -, rfl⟩ := execPeekRamGap_next h
    exact ⟨hl, .readByte _ _ (s.draws + 1) (Nat.le_succ _) ⟨a, .inr (.inr rfl)⟩⟩
  | peekOow a => obtain ⟨hl, -, rfl⟩ := execPeekOow_next h; exact ⟨hl, .refused _ _ (.inr (.inl ⟨_, rfl⟩))⟩
  | pokeHota v => obtain ⟨hl, -, h⟩ := execPokeHota_next h; exact ⟨hl, effect_hotA (.inl rfl) h⟩
  | pokeHotb v => obtain ⟨hl, -, h⟩ := execPokeHotb_next h; exact ⟨hl, effect_hotB (.inr (.inl rfl)) h⟩
  | pokeRom a v => obtain ⟨hl, _, -, rfl⟩ := execPokeRom_next h; exact ⟨hl, effect_unhandled (.inl rfl)⟩
  | pokeRamWr a v => obtain ⟨hl, k, ht, rfl⟩ := execPokeRamWr_next h; exact ⟨hl, .stored a v k ht⟩
  | pokeRamRdport a v =>
    obtain ⟨hl, _, -, rfl⟩ := execPokeRamRdport_next h
    exact ⟨hl, effect_unhandled (.inr (.inl rfl))⟩
  | pokeRamGap a v => obtain ⟨hl, -, rfl⟩ := execPokeRamGap_next h; exact ⟨hl, effect_unhandled (.inr (.inr rfl))⟩
  | pokeShadow a v =>
    obtain ⟨hl, hs, rfl⟩ := execPokeShadow_next h
    simp only [Bool.and_eq_true] at hs
    exact ⟨hl, .forwarded _ a v (.inr rfl) hs.1.1⟩
  | pokeOow a v =>
    obtain ⟨hl, -, rfl⟩ := execPokeOow_next (v := v) h
    exact ⟨hl, .refused _ _ (.inr (.inr ⟨_, _, rfl⟩))⟩
  | selrom seg n =>
    obtain ⟨hl, -, h⟩ := execSelrom_next h
    exact ⟨hl, effect_hotA (.inr (.inr ⟨seg, n, rfl, .inl rfl⟩)) h⟩
  | selram seg n =>
    obtain ⟨hl, -, h⟩ := execSelram_next h
    exact ⟨hl, effect_hotB (.inr (.inr ⟨seg, n, rfl, .inr rfl⟩)) h⟩
  | reset => obtain ⟨hl, h⟩ := execReset_next h; exact ⟨hl, .reset t h⟩
  | map b k => cases hi
  | construct image p => cases hi

/-- A step that answers a next state does nothing, or has the effect of a transaction on the state without it. -/
theorem step_effect (h : step s = .next t) :
    Live s ∧ ((s.pending = [] ∧ t = s) ∨
      ∃ rest i, i.isTransaction = true ∧ Effect { s with pending := rest } i t) := by
  obtain ⟨hl, h | ⟨x, rest, i, hp, hd, he⟩⟩ := step_next h
  · exact ⟨hl, .inl h⟩
  · have hi := decodeTxn_isTransaction hd
    exact ⟨hl, .inr ⟨rest, i, hi, (exec_effect hi he).2⟩⟩

end Sys2Proof.Machine
end

