-- ==== Sys2Proof/Laws/PerInstr.lean ====
section
/-! SUPPORT. A statement per operation as syntax: its second name, if it is one, has the word of the operation it names
(30_encoding R96), and the operation behind it is no second name. -/

namespace Sys2Proof.Laws.SecondName

/-- An operation and the core operation behind it are issued by the same transaction. -/
def Statement (i : Instr) : Prop := (∀ c, encode c i.core = encode c i) ∧ i.core.core = i.core

theorem peekShadow (a : Addr) : Statement (.peekShadow a) := ⟨fun _ => rfl, rfl⟩
theorem peekHot (h : Hotspot) : Statement (.peekHot h) := ⟨fun _ => rfl, rfl⟩
theorem peekRom (a : Addr) : Statement (.peekRom a) := ⟨fun _ => rfl, rfl⟩
theorem peekRamRd (a : Addr) : Statement (.peekRamRd a) := ⟨fun _ => rfl, rfl⟩
theorem peekRamWrport (a : Addr) : Statement (.peekRamWrport a) := ⟨fun _ => rfl, rfl⟩
theorem peekRamGap (a : Addr) : Statement (.peekRamGap a) := ⟨fun _ => rfl, rfl⟩
theorem peekOow (a : Addr) : Statement (.peekOow a) := ⟨fun _ => rfl, rfl⟩
theorem pokeHota (v : Byte) : Statement (.pokeHota v) := ⟨fun _ => rfl, rfl⟩
theorem pokeHotb (v : Byte) : Statement (.pokeHotb v) := ⟨fun _ => rfl, rfl⟩
theorem pokeRom (a : Addr) (v : Byte) : Statement (.pokeRom a v) := ⟨fun _ => rfl, rfl⟩
theorem pokeRamWr (a : Addr) (v : Byte) : Statement (.pokeRamWr a v) := ⟨fun _ => rfl, rfl⟩
theorem pokeRamRdport (a : Addr) (v : Byte) : Statement (.pokeRamRdport a v) := ⟨fun _ => rfl, rfl⟩
theorem pokeRamGap (a : Addr) (v : Byte) : Statement (.pokeRamGap a v) := ⟨fun _ => rfl, rfl⟩
theorem pokeShadow (a : Addr) (v : Byte) : Statement (.pokeShadow a v) := ⟨fun _ => rfl, rfl⟩
theorem pokeOow (a : Addr) (v : Byte) : Statement (.pokeOow a v) := ⟨fun _ => rfl, rfl⟩
theorem selrom (seg : BitVec 2) (n : BitVec 6) : Statement (.selrom seg n) := ⟨fun _ => rfl, rfl⟩
theorem selram (seg : BitVec 2) (n : BitVec 6) : Statement (.selram seg n) := ⟨fun _ => rfl, rfl⟩
theorem reset : Statement .reset := ⟨fun _ => rfl, rfl⟩
theorem map (b s : Nat) : Statement (.map b s) := ⟨fun _ => rfl, rfl⟩
theorem construct (image : List Byte) (p : Params) : Statement (.construct image p) := ⟨fun _ => rfl, rfl⟩

end Sys2Proof.Laws.SecondName
end

