-- ==== Sys2Proof/Tests/Slice0.lean ====
section
/-! SUPPORT. Tests on the fixtures of 95_test_vectors, and a witness for the hypotheses of every statement. Expected results
come from 95_test_vectors and the rules it names. -/

namespace Sys2Proof.Tests

open Machine

/-! Fixtures (95_test_vectors part 0). Of image T only the bytes the tests read are listed. -/

/-- CFG64 with image T. -/
def cfg64 : Config :=
  { defaultConfig with
    rom := [(0x0003, 0x03), (0x0801, 0x09), (0x0C00, 0x0C), (0x0D55, 0x0D), (0x0FFF, 0x0F), (0xFFFF, 0xFF)] }

/-- CFG4. -/
def cfg4 : Config := { defaultConfig with ramBanks := 2, romLen := 4096 }

/-- CFG4R0. -/
def cfg4r0 : Config := { cfg4 with ramBanks := 0 }

/-- CFGX: the shadow range and the segment region overlap. -/
def cfgX : Config :=
  { segSize := 1024, ramBanks := 1, ramBankSize := 512, ramRdOff := 512, ramWrOff := 0, segBase := 0, hotA := 0x1001
    hotB := 0x1000, shadowLimit := 0x0040, window := [(0, 0x1002)], startBank := 0, romLen := 4096, rom := [] }

/-- CFGX with short ports, so that a write port, a read port and a remainder all lie in the shadow range. -/
def cfgY : Config := { cfgX with ramBankSize := 16, ramRdOff := 16, ramWrOff := 0 }

/-- CFG64 with the remainder of 95_test_vectors 2.5. -/
def cfgGap : Config := { cfg64 with ramBankSize := 256, ramRdOff := 0, ramWrOff := 256 }

/-- The segment table of 95_test_vectors 2.3. -/
def seg23 : SegTable := { s0 := 0, s1 := 3, s2 := 69, s3 := 63 }

/-- An unmarked machine at a configuration and a segment table. -/
def at_ (c : Config) (t : SegTable) : State := { State.reset with cfg := c, seg := t }

/-- The start state of 95_test_vectors 2.3, its RAM cell not yet set. -/
def vec : State := at_ cfg64 seg23

/-- CFGX with RAM bank 0 in segment 0. -/
def vecX : State := at_ cfgX { s0 := 4, s1 := 1, s2 := 2, s3 := 3 }

/-- The gap fixture with RAM bank 0 in segment 0. -/
def vecGap : State := at_ cfgGap { s0 := 64, s1 := 1, s2 := 2, s3 := 3 }

/-- The state an operation goes on with. -/
def after (o : Out) : Option State :=
  match o with
  | .next s => some s
  | _ => none

/-! Every fixture is a configuration 00_scope R11 admits. -/

/-- The default parameters with any image of 1 to 64 whole banks. -/
theorem valid_default {n : Nat} {r : Memory} (hn : n % 1024 = 0) (hb : 1 ≤ n / 1024 ∧ n / 1024 ≤ 64) :
    ValidConfig { toParams := defaultParams, romLen := n, rom := r } where
  segSizePow2 := defaultConfig_valid.segSizePow2
  ramBankSizePos := defaultConfig_valid.ramBankSizePos
  wholeBanks := hn
  romBanksRange := hb
  ramBanksRange := defaultConfig_valid.ramBanksRange
  regionFits := defaultConfig_valid.regionFits
  regionInWindow := defaultConfig_valid.regionInWindow
  hotsDiffer := defaultConfig_valid.hotsDiffer
  hotAInWindow := defaultConfig_valid.hotAInWindow
  hotBInWindow := defaultConfig_valid.hotBInWindow
  shadowBelow := defaultConfig_valid.shadowBelow
  classed := defaultConfig_valid.classed
  rdPortInside := defaultConfig_valid.rdPortInside
  wrPortInside := defaultConfig_valid.wrPortInside
  portsDisjoint := defaultConfig_valid.portsDisjoint
  startBankRange := hb.1

theorem valid_cfg64 : ValidConfig cfg64 := valid_default (by decide) (by decide)

theorem valid_cfg4 : ValidConfig cfg4 where
  segSizePow2 := ⟨10, rfl⟩
  ramBankSizePos := by decide
  wholeBanks := by decide
  romBanksRange := by decide
  ramBanksRange := by decide
  regionFits := by decide
  regionInWindow := defaultConfig_valid.regionInWindow
  hotsDiffer := by decide
  hotAInWindow := by decide
  hotBInWindow := by decide
  shadowBelow := by decide
  classed := defaultConfig_valid.classed
  rdPortInside := by decide
  wrPortInside := by decide
  portsDisjoint := by decide
  startBankRange := by decide

theorem valid_cfgGap : ValidConfig cfgGap where
  segSizePow2 := ⟨10, rfl⟩
  ramBankSizePos := by decide
  wholeBanks := by decide
  romBanksRange := by decide
  ramBanksRange := by decide
  regionFits := by decide
  regionInWindow := defaultConfig_valid.regionInWindow
  hotsDiffer := by decide
  hotAInWindow := by decide
  hotBInWindow := by decide
  shadowBelow := by decide
  classed := defaultConfig_valid.classed
  rdPortInside := by decide
  wrPortInside := by decide
  portsDisjoint := by decide
  startBankRange := by decide

theorem cfgX_classed (a : Addr) (h : inWindow cfgX a = true) :
    inShadow cfgX a = true ∨ isHot cfgX a = true ∨ inSegRegion cfgX a = true := by
  simp only [inWindow, cfgX, List.any_cons, List.any_nil, Bool.or_false, decide_eq_true_eq] at h
  by_cases h1 : a.toNat < 0x1000
  · exact .inr (.inr (inSegRegion_iff.mpr ⟨Nat.zero_le _, h1⟩))
  · have h2 : a = 0x1000#16 ∨ a = 0x1001#16 := by
      simp only [BitVec.toNat_eq, BitVec.toNat_ofNat]
      omega
    exact .inr (.inl (by rcases h2 with rfl | rfl <;> decide))

theorem valid_cfgX : ValidConfig cfgX where
  segSizePow2 := ⟨10, rfl⟩
  ramBankSizePos := by decide
  wholeBanks := by decide
  romBanksRange := by decide
  ramBanksRange := by decide
  regionFits := by decide
  regionInWindow := fun a h => by
    have := (inSegRegion_iff.mp h).2
    simp [inWindow, cfgX] at *
    omega
  hotsDiffer := by decide
  hotAInWindow := by decide
  hotBInWindow := by decide
  shadowBelow := by decide
  classed := cfgX_classed
  rdPortInside := by decide
  wrPortInside := by decide
  portsDisjoint := by decide
  startBankRange := by decide

/-- An unmarked machine at a valid configuration, with legal entries and an image in canonical form, meets the invariant. -/
theorem inv_at {c : Config} {t : SegTable} (hc : ValidConfig c) (hw : Memory.wf romUnlisted c.rom = true)
    (hi : Memory.within c.romLen c.rom = true)
    (ht : t.s0 < bankCount c ∧ t.s1 < bankCount c ∧ t.s2 < bankCount c ∧ t.s3 < bankCount c) :
    StateInv (at_ c t) where
  config := hc
  romWf := hw
  romWithin := hi
  segLegal := fun i h => by
    match i, h with
    | 0, _ => exact ht.1
    | 1, _ => exact ht.2.1
    | 2, _ => exact ht.2.2.1
    | 3, _ => exact ht.2.2.2
  ramWf := rfl
  ramWithin := rfl
  ramInitPast := (by decide : State.reset.ramInit < State.reset.draws)
  oneMark := .inl rfl
  faultRecord := fun r h => by cases h

theorem inv_vec : StateInv vec := inv_at valid_cfg64 (by decide) (by decide) (by decide)
theorem inv_vecX : StateInv vecX := inv_at valid_cfgX (by decide) (by decide) (by decide)
theorem inv_vecGap : StateInv vecGap := inv_at valid_cfgGap (by decide) (by decide) (by decide)

/-- A list of waiting transactions is no part of the invariant. -/
theorem inv_pending {s : State} (h : StateInv s) (q : List Txn) : StateInv { s with pending := q } :=
  ⟨h.1, h.2, h.3, h.4, h.5, h.6, h.7, h.8, h.9⟩

theorem live_at (c : Config) (t : SegTable) : Live (at_ c t) := ⟨rfl, rfl⟩

/-! Well-formedness: one ill-formed operation for each check. -/

theorem test_illformed_peekShadow : (Instr.peekShadow 0x003E).wellFormed cfg64 = false := by decide
theorem test_illformed_peekHot :
    (Instr.peekHot .a).wellFormed { cfg64 with shadowLimit := 0x0040 } = false ∧
    (Instr.peekHot .b).wellFormed { cfg64 with hotB := 0x003F } = false ∧
    (Instr.peekHot .a).wellFormed { cfg64 with hotA := 0x0040 } = false := by decide
theorem test_illformed_peekRom :
    (Instr.peekRom 0x0FFF).wellFormed cfg64 = false ∧ (Instr.peekRom 0x003F).wellFormed cfgX = false := by decide
theorem test_illformed_peekRamRd :
    (Instr.peekRamRd 0x1A00).wellFormed cfg64 = false ∧ (Instr.peekRamRd 0x2000).wellFormed cfg64 = false := by decide
theorem test_illformed_peekRamWrport : (Instr.peekRamWrport 0x19FF).wellFormed cfg64 = false := by decide
theorem test_illformed_peekRamGap :
    (Instr.peekRamGap 0x1A00).wellFormed cfg64 = false ∧ (Instr.peekRamGap 0x11FF).wellFormed cfgGap = false := by decide
theorem test_illformed_peekOow : (Instr.peekOow 0x1000).wellFormed cfg64 = false := by decide
theorem test_illformed_pokeHota : (Instr.pokeHota 0).wellFormed { cfg64 with hotA := 0x2000 } = false := by decide
theorem test_illformed_pokeHotb : (Instr.pokeHotb 0).wellFormed { cfg64 with hotB := 0x003F } = false := by decide
theorem test_illformed_pokeRom :
    (Instr.pokeRom 0x2000 0).wellFormed cfg64 = false ∧
    (Instr.pokeRom 0x1000 0).wellFormed { cfg64 with hotA := 0x1000 } = false := by decide
theorem test_illformed_pokeRamWr : (Instr.pokeRamWr 0x19FF 0).wellFormed cfg64 = false := by decide
theorem test_illformed_pokeRamRdport : (Instr.pokeRamRdport 0x1A00 0).wellFormed cfg64 = false := by decide
theorem test_illformed_pokeRamGap : (Instr.pokeRamGap 0x1000 0).wellFormed cfgGap = false := by decide
theorem test_illformed_pokeShadow :
    (Instr.pokeShadow 0x0040 0).wellFormed cfg64 = false ∧
    (Instr.pokeShadow 0x003F 0).wellFormed { cfg64 with shadowLimit := 0x0040 } = false := by decide
theorem test_illformed_pokeOow : (Instr.pokeOow 0x003D 0).wellFormed cfg64 = false := by decide
theorem test_illformed_selrom : (Instr.selrom 0 0).wellFormed { cfg64 with hotA := 0x2000 } = false := by decide
theorem test_illformed_selram : (Instr.selram 0 0).wellFormed { cfg64 with hotB := 0x2000 } = false := by decide
theorem test_illformed_construct :
    (Instr.construct [] { defaultParams with segSize := 1000 }).wellFormed cfg64 = false ∧
    (Instr.construct [] { defaultParams with segSize := 0 }).wellFormed cfg64 = false ∧
    (Instr.construct [] { defaultParams with ramBankSize := 0 }).wellFormed cfg64 = false := by decide

/-! Decode: each row's word, written bit by bit from 30_encoding R81 (W, the 16 address bits, the 8 data bits). -/

/-- Decode at the state of 95_test_vectors 2.3. -/
def dec (w : BusWord) : Except DecodeError Instr := decodeBus cfg64 seg23 w

/-- Whether decode answers this operation. -/
def gives (r : Except DecodeError Instr) (i : Instr) : Bool :=
  match r with
  | .ok j => decide (j = i)
  | .error _ => false

theorem test_decode_peekShadow : gives (dec 0b0000000000011110100000000) (.peekShadow 0x003D) = true := by decide
theorem test_decode_peekHot :
    gives (dec 0b0000000000011111100000000) (.peekHot .a) = true ∧
    gives (dec 0b0000000000011111000000000) (.peekHot .b) = true := by decide
theorem test_decode_peekRom : gives (dec 0b0000101000000000000000000) (.peekRom 0x1400) = true := by decide
theorem test_decode_peekRamRd : gives (dec 0b0000110000001000000000000) (.peekRamRd 0x1810) = true := by decide
theorem test_decode_peekRamWrport : gives (dec 0b0000110100001000000000000) (.peekRamWrport 0x1A10) = true := by decide
theorem test_decode_peekRamGap :
    gives (decodeBus cfgGap vecGap.seg 0b0000100110000000000000000) (.peekRamGap 0x1300) = true := by decide
theorem test_decode_peekOow :
    gives (dec 0b0000000000100000000000000) (.peekOow 0x0040) = true ∧
    gives (dec 0b0001000000000000000000000) (.peekOow 0x2000) = true := by decide
theorem test_decode_pokeHota : gives (dec 0b1000000000011111101000011) (.pokeHota 0x43) = true := by decide
theorem test_decode_pokeHotb : gives (dec 0b1000000000011111010000101) (.pokeHotb 0x85) = true := by decide
theorem test_decode_pokeRom : gives (dec 0b1000101000000000011111111) (.pokeRom 0x1400 0xFF) = true := by decide
theorem test_decode_pokeRamWr : gives (dec 0b1000110100001000001011010) (.pokeRamWr 0x1A10 0x5A) = true := by decide
theorem test_decode_pokeRamRdport : gives (dec 0b1000110000001000001110111) (.pokeRamRdport 0x1810 0x77) = true := by decide
theorem test_decode_pokeRamGap :
    gives (decodeBus cfgGap vecGap.seg 0b1000100110000000000000001) (.pokeRamGap 0x1300 0x01) = true := by decide
theorem test_decode_pokeShadow : gives (dec 0b1000000000000001000000000) (.pokeShadow 0x0002 0x00) = true := by decide
theorem test_decode_pokeOow : gives (dec 0b1000011111111111100000000) (.pokeOow 0x0FFF 0x00) = true := by decide
/-- `SELROM 1, 3` and `SELRAM 2, 5` are the hotspot words of 95_test_vectors P2. -/
theorem test_encode_second_names :
    encode cfg64 (.selrom 1 3) = some (.bus 0x1003F43) ∧ encode cfg64 (.selram 2 5) = some (.bus 0x1003E85) := by decide
theorem test_decode_reset : gives (decodeTxn cfg64 seg23 .reset) .reset = true := by decide
/-- 30_encoding R94: a BUS word has 25 bits. -/
theorem test_decode_rejects_a_longer_number : gives (decodeNat cfg64 seg23 0x2000000) (.peekOow 0) = false := by decide
/-- The data field of a read is ignored (30_encoding R81). -/
theorem test_decode_ignores_read_data : gives (dec 0b0000101000000000011111111) (.peekRom 0x1400) = true := by decide
theorem test_table_word : decodeTableWord 25 0x1003F43 = some (.pokeHota 0x43) ∧
    decodeTableWord 25 0x0100000 = some (.peekRom 0x1000) ∧
    decodeTableWord 25 0x1120000 = some (.pokeRamWr 0x1200 0x00) := by decide
/-- A table word placed at the state after power-on is what the next step runs. -/
theorem test_table_word_runs :
    (after (step (State.reset.withFetchWord 25 0x1003F43))).map (fun s => (s.reply, s.seg.s1, s.pending)) =
      some (some (.handled true), 3, []) ∧
    (after (step (State.reset.withFetchWord 25 0x1120000))).map (fun s => (s.reply, s.seg.s0, s.pending)) =
      some (some (.handled true), 64, []) := by decide

/-! Rows of `peek`. -/

theorem test_peekRom_last_byte :
    exec (.peekRom 0x1FFF) vec = .next { vec with reply := some (.byte 0xFF) } := by rfl
theorem test_peekRom_step :
    step { vec with pending := [.bus 0x0140000] } = .next { vec with reply := some (.byte 0x0C) } := by rfl
theorem test_peekRamRd :
    exec (.peekRamRd 0x1810) { vec with ram := [(2576, 0x5A)] } =
      .next { vec with ram := [(2576, 0x5A)], reply := some (.byte 0x5A) } := by rfl
theorem test_peekRamRd_last_cell :
    exec (.peekRamRd 0x19FF) vec = .next { vec with reply := some (.byte (Config.freeRam 4 3071)) } := by rfl
theorem test_peekRamWrport_returns_a_byte :
    ((after (exec (.peekRamWrport 0x1A10) vec)).bind State.reply) = some (.byte (Config.freeByte 5)) := by
  show ((after (whenLive vec (.next (disturb 2576 (drawn (answer (.byte (nextByte vec)) vec)))))).bind _) = _
  rcases disturb_cases 2576 (drawn (answer (.byte (nextByte vec)) vec)) with e | ⟨w, e⟩ <;> rw [e] <;> rfl
theorem test_peekRamGap : ∃ v n, exec (.peekRamGap 0x1300) vecGap =
    .next { vecGap with reply := some (.byte v), draws := n } := ⟨_, _, rfl⟩
theorem test_peekShadow_records : ∃ v n, exec (.peekShadow 0x0000) vec = .next
    { vec with events := [.periphRead 0x0000 v], reply := some (.byte v), draws := n } := ⟨_, _, rfl⟩
/-- 95_test_vectors 2.9: peripheral first for reads. -/
theorem test_peekShadow_first : gives (decodeBus cfgX vecX.seg 0x0001000) (.peekShadow 0x0010) = true := by decide
theorem test_peekHot : exec (.peekHot .b) vec = .next { vec with refused := some (.hotspotRead 0x003E) } := by rfl
theorem test_peekOow : exec (.peekOow 0xFFFC) vec =
    .next { vec with refused := some (.outOfWindow 0xFFFC .read) } := by rfl

/-! Rows of `poke`. -/

theorem test_pokeHota_maps :
    exec (.pokeHota 0xFF) vec =
      .next { vec with seg := { s0 := 0, s1 := 3, s2 := 69, s3 := 63 }, reply := some (.handled true) } := by rfl
theorem test_pokeHota_may_name_ram :
    ((after (exec (.pokeHota 0x05) (at_ cfg4 ⟨0, 1, 2, 0⟩))).map fun s => s.seg.s0) = some 5 := by decide
theorem test_pokeHotb_maps :
    ((after (exec (.pokeHotb 0x85) (at_ cfg64 ⟨0, 1, 2, 0⟩))).map fun s => s.seg) = some ⟨0, 1, 69, 0⟩ := by decide
theorem test_pokeHotb_faults :
    exec (.pokeHotb 0x00) (at_ cfg4r0 ⟨0, 1, 2, 0⟩) =
      .next { at_ cfg4r0 ⟨0, 1, 2, 0⟩ with fault := some (.bankOutOfRange 4 0) } := by rfl
theorem test_pokeRom_ignored : exec (.pokeRom 0x1400 0xFF) vec = .next { vec with reply := some (.handled false) } := by rfl
theorem test_pokeRom_forwarded_in_overlap : ∃ h n, exec (.pokeRom 0x0010 0x33) (at_ cfgX ⟨0, 1, 2, 3⟩) = .next
    { at_ cfgX ⟨0, 1, 2, 3⟩ with
      events := [.periphWrite 0x0010 0x33 h], reply := some (.handled h), draws := n } := ⟨_, _, rfl⟩
theorem test_pokeRamWr : ∃ t, exec (.pokeRamWr 0x1BFF 0x01) vec = .next t ∧ ramRead t 3071 = 0x01 ∧
    ramRead t 3070 = ramRead vec 3070 ∧ t.reply = some (.handled true) :=
  ⟨_, rfl, (ramRead_ramWrite (s := vec) rfl).trans rfl, (ramRead_ramWrite (s := vec) rfl).trans rfl, rfl⟩
/-- 95_test_vectors 2.9: engine first for writes. -/
theorem test_pokeRamWr_first : ∃ t, exec (.pokeRamWr 0x0010 0x33) vecX = .next t ∧ ramRead t 0x10 = 0x33 ∧
    t.events = [] := ⟨_, rfl, (ramRead_ramWrite (s := vecX) rfl).trans rfl, rfl⟩
theorem test_pokeRamRdport : exec (.pokeRamRdport 0x1810 0x77) vec =
    .next { vec with reply := some (.handled false) } := by rfl
theorem test_pokeRamGap : exec (.pokeRamGap 0x1300 0x01) vecGap =
    .next { vecGap with reply := some (.handled false) } := by rfl
theorem test_pokeShadow : ∃ h n, exec (.pokeShadow 0x0002 0x00) vec = .next
    { vec with events := [.periphWrite 0x0002 0x00 h], reply := some (.handled h), draws := n } := ⟨_, _, rfl⟩
theorem test_pokeOow : exec (.pokeOow 0x0FFF 0x12) vec =
    .next { vec with refused := some (.outOfWindow 0x0FFF .write) } := by rfl
theorem test_selrom : ((after (exec (.selrom 1 3) (at_ cfg64 ⟨0, 1, 2, 0⟩))).map fun s => s.seg) = some ⟨0, 3, 2, 0⟩ := by
  decide
theorem test_selram : ((after (exec (.selram 2 5) (at_ cfg64 ⟨0, 1, 2, 0⟩))).map fun s => s.seg) = some ⟨0, 1, 69, 0⟩ := by
  decide

/-! `MAP`, `RESET`, `CONSTRUCT`. -/

theorem test_map :
    exec (.map 71 3) vec = .next { vec with seg := ⟨0, 3, 69, 71⟩ } ∧
    exec (.map 72 0) vec = .next { vec with fault := some (.bankOutOfRange 72 0) } := ⟨rfl, rfl⟩
theorem test_map_segment_first :
    exec (.map 0 4) vec = .next { vec with fault := some (.segmentOutOfRange 0 4) } ∧
    exec (.map 99 4) vec = .next { vec with fault := some (.segmentOutOfRange 99 4) } := ⟨rfl, rfl⟩
theorem test_reset_segment3_and_rom : ∃ d0 d1 d2 t, exec .reset vec = .next t ∧
    t.seg = ⟨d0, d1, d2, 0⟩ ∧ d2 < 64 ∧ t.ram = [] :=
  ⟨_, _, _, _, (whenLive_of_live (live_at cfg64 seg23)).trans (resetBody_eq (by decide) (by decide)), rfl,
    nextBank_lt (by decide), rfl⟩
theorem test_reset_after_fault :
    exec .reset { vec with fault := some (.bankOutOfRange 6 0) } = .fault (.halted (.bankOutOfRange 6 0)) := by rfl

/-- A configuration with an unlisted image of `n` bytes. -/
def bare (n : Nat) (p : Params) : Config := { toParams := p, romLen := n, rom := [] }

/-- A failed check of a construction is its outcome; no check reads a byte of the image. -/
theorem construct_stops {image : List Byte} {p : Params} {e : ConfigError} {n : Nat} (s : State)
    (hn : image.length = n) (hp : paramsInRange p = true) (h : checkConfig (bare n p) = some e) :
    exec (.construct image p) s = .fault (.configError e) := by
  subst hn
  show execConstruct image p s = _
  rw [execConstruct, hp, show checkConfig (makeConfig image p) = some e from h]
  rfl

/-- The scan of 00_scope R11 item 3 finds nothing where the segment region and the window are the default ones. -/
theorem no_stray : firstAddr (strayRegion defaultConfig) addrCount = none :=
  firstAddr_all_none.mpr fun a => strayRegion_false.mpr (defaultConfig_valid.regionInWindow a)

/-- The scan of 00_scope R11 item 6 finds nothing where all address classes are the default ones. -/
theorem no_unclassed : firstAddr (unclassed defaultConfig) addrCount = none :=
  firstAddr_all_none.mpr fun a => unclassed_false.mpr (defaultConfig_valid.classed a)

/-- `ConstructStopsAtFirstFailure`, branch by branch. Images of 1000 bytes, of none and of 65 banks; 65 RAM banks (95_test_vectors 2.10). -/
theorem witness_ConstructStopsAtFirstFailure_ce1 (s : State) :
    exec (.construct (List.replicate 1000 0) defaultParams) s = .fault (.configError (.ce1 1000 1024)) :=
  construct_stops s List.length_replicate (by decide) (by decide)
theorem witness_ConstructStopsAtFirstFailure_ce2 (s : State) :
    exec (.construct [] defaultParams) s = .fault (.configError (.ce2 0)) ∧
    exec (.construct (List.replicate 66560 0) defaultParams) s = .fault (.configError (.ce2 65)) ∧
    exec (.construct (List.replicate 65536 0) { defaultParams with ramBanks := 65 }) s =
      .fault (.configError (.ce2 65)) :=
  ⟨construct_stops s rfl (by decide) (by decide),
    construct_stops s List.length_replicate (by decide) (by decide),
    construct_stops s List.length_replicate (by decide) (by decide)⟩

/-- A segment region that ends one byte above the address space, and one whose last byte lies outside the window. -/
theorem witness_ConstructStopsAtFirstFailure_ce3_fit (s : State) :
    exec (.construct (List.replicate 65536 0) { defaultParams with segBase := 0xF001 }) s =
      .fault (.configError (.ce3 0xF001 1024)) :=
  construct_stops s List.length_replicate (by decide) (by
    rw [checkConfig, if_neg (by decide), if_neg (by decide), if_neg (by decide), if_pos (fun h => absurd h.1 (by decide))]
    rfl)
theorem witness_ConstructStopsAtFirstFailure_ce3_window (s : State) :
    exec (.construct (List.replicate 65536 0) { defaultParams with segBase := 0x1001 }) s =
      .fault (.configError (.ce3 0x1001 1024)) :=
  construct_stops s List.length_replicate (by decide) (by
    rw [checkConfig, if_neg (by decide), if_neg (by decide), if_neg (by decide),
      if_pos (fun h => absurd (firstAddr_all_none.mp h.2 0x2000) (by decide))]
    rfl)
theorem witness_ConstructStopsAtFirstFailure_ce4 (s : State) :
    exec (.construct (List.replicate 65536 0) { defaultParams with hotB := 0x003F }) s =
      .fault (.configError (.ce4 0x003F 0x003F)) :=
  construct_stops s List.length_replicate (by decide) (by
    rw [checkConfig, if_neg (by decide), if_neg (by decide), if_neg (by decide),
      if_neg (fun h => h ⟨by decide, no_stray⟩), if_pos (by decide)]
    rfl)
theorem witness_ConstructStopsAtFirstFailure_ce5 (s : State) :
    exec (.construct (List.replicate 65536 0) { defaultParams with shadowLimit := 0x0040 }) s =
      .fault (.configError (.ce5 0x0040)) :=
  construct_stops s List.length_replicate (by decide) (by
    rw [checkConfig, if_neg (by decide), if_neg (by decide), if_neg (by decide),
      if_neg (fun h => h ⟨by decide, no_stray⟩), if_neg (by decide), if_pos (by decide)]
    rfl)

/-- A window one address longer than the segment region. -/
def longWindow : Params := { defaultParams with window := [(0x0000, 0x0040), (0x1000, 0x2001)] }

theorem longWindow_stray : firstAddr (strayRegion (bare 65536 longWindow)) addrCount = none :=
  firstAddr_all_none.mpr fun a => strayRegion_false.mpr fun h => by
    have := inSegRegion_default.mp h
    simp [inWindow, bare, longWindow, defaultParams]
    omega

theorem longWindow_unclassed : firstAddr (unclassed (bare 65536 longWindow)) addrCount = some 0x2000 := by
  cases hf : firstAddr (unclassed (bare 65536 longWindow)) addrCount with
  | none => exact absurd (firstAddr_all_none.mp hf 0x2000) (by decide)
  | some a =>
    obtain ⟨h1, h2⟩ := firstAddr_all_some hf
    have h3 : ¬0x2000 < a.toNat := fun h => absurd (h2 0x2000#16 h) (by decide)
    have h4 : ¬a.toNat < 0x2000 := fun h => by
      rw [unclassed_false.mpr fun hw => ?_] at h1
      · cases h1
      · have hr : a.toNat < 0x40 ∨ 0x1000 ≤ a.toNat ∧ a.toNat < 0x2001 := by
          simpa [inWindow, bare, longWindow, defaultParams] using hw
        by_cases hs : a.toNat < 0x3E
        · exact .inl (by rw [inShadow, hw, Bool.true_and, decide_eq_true_eq]; exact hs)
        · refine .inr ?_
          rcases hr with hr | hr
          · exact .inl (isHot_default.mpr (by omega))
          · exact .inr (inSegRegion_default.mpr ⟨hr.1, h⟩)
    rw [Option.some.injEq]
    exact BitVec.eq_of_toNat_eq (show a.toNat = 0x2000 by omega)

theorem witness_ConstructStopsAtFirstFailure_ce6 (s : State) :
    exec (.construct (List.replicate 65536 0) longWindow) s = .fault (.configError (.ce6 0x2000)) :=
  construct_stops s List.length_replicate (by decide) (by
    rw [checkConfig, if_neg (by decide), if_neg (by decide), if_neg (by decide),
      if_neg (fun h => h ⟨by decide, longWindow_stray⟩), if_neg (by decide), if_neg (by decide), longWindow_unclassed])
theorem witness_ConstructStopsAtFirstFailure_ce7 (s : State) :
    exec (.construct (List.replicate 65536 0) { defaultParams with ramWrOff := 256 }) s =
      .fault (.configError (.ce7 0 256 512)) :=
  construct_stops s List.length_replicate (by decide) (by
    rw [checkConfig, if_neg (by decide), if_neg (by decide), if_neg (by decide),
      if_neg (fun h => h ⟨by decide, no_stray⟩), if_neg (by decide), if_neg (by decide),
      show firstAddr (unclassed (bare 65536 { defaultParams with ramWrOff := 256 })) addrCount = none from no_unclassed]
    rfl)
theorem witness_ConstructStopsAtFirstFailure_ce8 (s : State) :
    exec (.construct (List.replicate 65536 0) { defaultParams with startBank := 64 }) s =
      .fault (.configError (.ce8 64)) :=
  construct_stops s List.length_replicate (by decide) (by
    rw [checkConfig, if_neg (by decide), if_neg (by decide), if_neg (by decide),
      if_neg (fun h => h ⟨by decide, no_stray⟩), if_neg (by decide), if_neg (by decide),
      show firstAddr (unclassed (bare 65536 { defaultParams with startBank := 64 })) addrCount = none from no_unclassed]
    rfl)

/-! Witnesses: for each statement with hypotheses, a state and operands that meet all of them, at the boundaries of their
ranges, and one for each clause. -/

/-- A machine whose fault register is set, and one whose refusal mark is set. -/
def faulted : State := { vec with fault := some (.bankOutOfRange 72 0) }
def marked : State := { vec with refused := some (.hotspotRead 0x003E) }

theorem inv_faulted : StateInv faulted where
  config := valid_cfg64
  romWf := by decide
  romWithin := by decide
  segLegal := inv_vec.segLegal
  ramWf := rfl
  ramWithin := rfl
  ramInitPast := by decide
  oneMark := .inr rfl
  faultRecord := fun r h => by cases h; exact ⟨72, 0, rfl, by decide, by decide⟩

/-- `StepKeepsInvariant`, with a transaction that maps, one that faults, and none. -/
theorem witness_StepKeepsInvariant :
    (StateInv { vec with pending := [.bus 0x1003F43] } ∧
      step { vec with pending := [.bus 0x1003F43] } = .next { vec with reply := some (.handled true) }) ∧
    (StateInv { vec with pending := [.bus 0x1003E08] } ∧
      step { vec with pending := [.bus 0x1003E08] } = .next { vec with fault := some (.bankOutOfRange 72 0) }) ∧
    StateInv vec ∧ step vec = .next vec :=
  ⟨⟨inv_pending inv_vec _, rfl⟩, ⟨inv_pending inv_vec _, rfl⟩, inv_vec, rfl⟩
theorem witness_UnmarkedMachineAlwaysSteps :
    StateInv { vec with pending := [.reset] } ∧ Live { vec with pending := [.reset] } := ⟨inv_pending inv_vec _, rfl, rfl⟩
theorem witness_PowerOnIsConstructionAndReset : ({ vec with draws := 0 } : State).draws = 0 := rfl
theorem witness_ResetRemapsAndRedraws : Live vec ∧ vec.cfg.startBank < romBanks vec.cfg := ⟨⟨rfl, rfl⟩, by decide⟩
/-- The image of one bank, 95_test_vectors 2.10. -/
theorem witness_ConstructBuildsTheMachine : ValidConfig (makeConfig (List.replicate 1024 1) defaultParams) :=
  valid_default (n := (List.replicate 1024 (1 : Byte)).length)
    (by rw [List.length_replicate]) (by rw [List.length_replicate]; decide)
/-- The branches of `ConstructStopsAtFirstFailure` are the theorems of this name with
`_ce1` to `_ce8`, and the last, here. -/
theorem witness_ConstructStopsAtFirstFailure : (∃ k, defaultParams.segSize = 2 ^ k) ∧ 1 ≤ defaultParams.ramBankSize ∧
    checkConfig (bare 65536 defaultParams) = none := by
  refine ⟨⟨10, rfl⟩, by decide, ?_⟩
  rw [checkConfig, if_neg (by decide), if_neg (by decide), if_neg (by decide),
    if_neg (fun h => h ⟨by decide, no_stray⟩), if_neg (by decide), if_neg (by decide),
    show firstAddr (unclassed (bare 65536 defaultParams)) addrCount = none from no_unclassed]
  rfl
theorem witness_ConstructRefusesOutOfRange :
    ¬((∃ k, ({ defaultParams with segSize := 1000 } : Params).segSize = 2 ^ k) ∧ 1 ≤ 512) ∧
    ¬((∃ k, defaultParams.segSize = 2 ^ k) ∧ 1 ≤ ({ defaultParams with ramBankSize := 0 } : Params).ramBankSize) :=
  ⟨fun h => absurd (pow2_iff.mpr h.1) (by decide), fun h => absurd h.2 (by decide)⟩
theorem witness_MarkedMachineHasNoStep :
    (faulted.fault = some (.bankOutOfRange 72 0) ∧ step faulted = .fault (.halted (.bankOutOfRange 72 0))) ∧
    (marked.fault = none ∧ marked.refused = some (.hotspotRead 0x003E) ∧
      step marked = .refused (.halted (.hotspotRead 0x003E))) := ⟨⟨rfl, rfl⟩, rfl, rfl, rfl⟩
theorem witness_FaultChangesOnlyTheRegister : StateInv vec ∧ (Instr.pokeHotb 0x08).isTransaction = true ∧
    exec (.pokeHotb 0x08) vec = .next faulted ∧ faulted.fault = some (.bankOutOfRange 72 0) := ⟨inv_vec, rfl, rfl, rfl⟩
theorem witness_RefusalChangesOnlyTheMark : (Instr.peekHot .b).isTransaction = true ∧
    exec (.peekHot .b) vec = .next marked ∧ marked.refused = some (.hotspotRead 0x003E) := ⟨rfl, rfl, rfl⟩
theorem witness_SegmentFaultIsUnreachable : (Instr.pokeHotb 0xC8).isTransaction = true ∧
    exec (.pokeHotb 0xC8) vec = .next { vec with fault := some (.bankOutOfRange 72 3) } := ⟨rfl, rfl⟩
/-- The clauses of `MapChecksThenWritesOneEntry` are `test_map` and `test_map_segment_first`. -/
theorem witness_MapChecksThenWritesOneEntry : Live vec := ⟨rfl, rfl⟩
theorem witness_PeekRomReturnsTheImageByte :
    (Live vec ∧ ReadPasses vec.cfg 0x1000 ∧ AtSegment vec.cfg 0x1000 0 0 ∧ vec.seg.get 0 < romBanks vec.cfg) ∧
    (ReadPasses vec.cfg 0x1FFF ∧ AtSegment vec.cfg 0x1FFF 3 0x3FF ∧ vec.seg.get 3 < romBanks vec.cfg) :=
  ⟨⟨⟨rfl, rfl⟩, ⟨by decide, by decide, by decide⟩, ⟨by decide, by decide, by decide⟩, by decide⟩,
    ⟨by decide, by decide, by decide⟩, ⟨by decide, by decide, by decide⟩, by decide⟩
theorem witness_PeekReadPortReturnsTheCell : Live vec ∧ ReadPasses vec.cfg 0x19FF ∧
    AtSegment vec.cfg 0x19FF 2 (vec.cfg.ramRdOff + 511) ∧ 511 < vec.cfg.ramBankSize ∧
    romBanks vec.cfg ≤ vec.seg.get 2 ∧ vec.seg.get 2 < romBanks vec.cfg + vec.cfg.ramBanks :=
  ⟨⟨rfl, rfl⟩, ⟨by decide, by decide, by decide⟩, ⟨by decide, by decide, by decide⟩, by decide, by decide, by decide⟩
theorem witness_PeekWritePortDisturbsOneCell : StateInv vec ∧ Live vec ∧ ReadPasses vec.cfg 0x1A00 ∧
    AtSegment vec.cfg 0x1A00 2 (vec.cfg.ramWrOff + 0) ∧ 0 < vec.cfg.ramBankSize ∧ romBanks vec.cfg ≤ vec.seg.get 2 :=
  ⟨inv_vec, ⟨rfl, rfl⟩, ⟨by decide, by decide, by decide⟩, ⟨by decide, by decide, by decide⟩, by decide, by decide⟩
theorem witness_PeekGapReturnsSomeByte : Live vecGap ∧ ReadPasses vecGap.cfg 0x1200 ∧ AtSegment vecGap.cfg 0x1200 0 0x200 ∧
    ¬(vecGap.cfg.ramRdOff ≤ 0x200 ∧ 0x200 < vecGap.cfg.ramRdOff + vecGap.cfg.ramBankSize) ∧
    ¬(vecGap.cfg.ramWrOff ≤ 0x200 ∧ 0x200 < vecGap.cfg.ramWrOff + vecGap.cfg.ramBankSize) ∧
    romBanks vecGap.cfg ≤ vecGap.seg.get 0 ∧ vecGap.seg.get 0 < romBanks vecGap.cfg + vecGap.cfg.ramBanks :=
  ⟨⟨rfl, rfl⟩, ⟨by decide, by decide, by decide⟩, ⟨by decide, by decide, by decide⟩, by decide, by decide, by decide, by decide⟩
theorem witness_PeekShadowAsksThePeripheral : Live vec ∧ inShadow vec.cfg 0x003D = true ∧ inShadow cfgX 0x0010 = true :=
  ⟨⟨rfl, rfl⟩, by decide, by decide⟩
theorem witness_PeekHotspotIsRefused : Live vec ∧
    (inWindow vec.cfg (hotAddr vec.cfg .a) = true ∧ inShadow vec.cfg (hotAddr vec.cfg .a) = false) ∧
    inWindow vec.cfg (hotAddr vec.cfg .b) = true ∧ inShadow vec.cfg (hotAddr vec.cfg .b) = false :=
  ⟨⟨rfl, rfl⟩, by decide, by decide⟩
theorem witness_OutOfWindowIsRefused : Live vec ∧ inWindow vec.cfg 0x0040 = false ∧ inWindow vec.cfg 0x0FFF = false ∧
    inWindow vec.cfg 0x2000 = false ∧ inWindow vec.cfg 0xFFFF = false := ⟨⟨rfl, rfl⟩, by decide⟩
/-- Both branches at CFG4, whose bank indices end at 5 (95_test_vectors 2.6). -/
theorem witness_PokeHotspotASelectsTheBank : Live (at_ cfg4 ⟨0, 1, 2, 0⟩) ∧ inWindow cfg4 cfg4.hotA = true ∧
    (0x05#8 &&& 0x3F#8).toNat < romBanks cfg4 + cfg4.ramBanks ∧
    ¬(0x06#8 &&& 0x3F#8).toNat < romBanks cfg4 + cfg4.ramBanks := ⟨⟨rfl, rfl⟩, by decide⟩
theorem witness_PokeHotspotBSelectsTheRamBank : Live (at_ cfg4 ⟨0, 1, 2, 0⟩) ∧ inWindow cfg4 cfg4.hotB = true ∧
    cfg4.hotA ≠ cfg4.hotB ∧ (0x41#8 &&& 0x3F#8).toNat < cfg4.ramBanks ∧ ¬(0x02#8 &&& 0x3F#8).toNat < cfg4.ramBanks :=
  ⟨⟨rfl, rfl⟩, by decide⟩
theorem witness_SelectPseudoOpsExpand : Live vec ∧ inWindow vec.cfg vec.cfg.hotA = true ∧
    inWindow vec.cfg vec.cfg.hotB = true ∧ vec.cfg.hotA ≠ vec.cfg.hotB ∧
    (0xC7#8).toNat = (3#2).toNat * 64 + (7#6).toNat ∧
    (7#6).toNat < romBanks vec.cfg + vec.cfg.ramBanks ∧ (7#6).toNat < vec.cfg.ramBanks := ⟨⟨rfl, rfl⟩, by decide⟩
theorem witness_PokeWritePortStoresTheByte : StateInv vec ∧ Live vec ∧ WritePasses vec.cfg 0x1BFF ∧
    AtSegment vec.cfg 0x1BFF 2 (vec.cfg.ramWrOff + 511) ∧ 511 < vec.cfg.ramBankSize ∧ romBanks vec.cfg ≤ vec.seg.get 2 :=
  ⟨inv_vec, ⟨rfl, rfl⟩, ⟨by decide, by decide⟩, ⟨by decide, by decide, by decide⟩, by decide, by decide⟩
/-- A ROM segment, a read port and a remainder, each at its first offset. -/
theorem witness_UnwritableWritesAreIgnored :
    (Live vec ∧ WritePasses vec.cfg 0x1400 ∧ inShadow vec.cfg 0x1400 = false ∧ AtSegment vec.cfg 0x1400 1 0 ∧
      vec.seg.get 1 < romBanks vec.cfg) ∧
    (WritePasses vec.cfg 0x1800 ∧ inShadow vec.cfg 0x1800 = false ∧ AtSegment vec.cfg 0x1800 2 0 ∧
      romBanks vec.cfg ≤ vec.seg.get 2 ∧ vec.seg.get 2 < romBanks vec.cfg + vec.cfg.ramBanks ∧
      vec.cfg.ramRdOff ≤ 0 ∧ 0 < vec.cfg.ramRdOff + vec.cfg.ramBankSize) ∧
    (Live vecGap ∧ WritePasses vecGap.cfg 0x1200 ∧ inShadow vecGap.cfg 0x1200 = false ∧
      AtSegment vecGap.cfg 0x1200 0 0x200 ∧ romBanks vecGap.cfg ≤ vecGap.seg.get 0 ∧
      vecGap.seg.get 0 < romBanks vecGap.cfg + vecGap.cfg.ramBanks ∧
      ¬(vecGap.cfg.ramRdOff ≤ 0x200 ∧ 0x200 < vecGap.cfg.ramRdOff + vecGap.cfg.ramBankSize) ∧
      ¬(vecGap.cfg.ramWrOff ≤ 0x200 ∧ 0x200 < vecGap.cfg.ramWrOff + vecGap.cfg.ramBankSize)) :=
  ⟨⟨⟨rfl, rfl⟩, ⟨by decide, by decide⟩, by decide, ⟨by decide, by decide, by decide⟩, by decide⟩,
    ⟨⟨by decide, by decide⟩, by decide, ⟨by decide, by decide, by decide⟩, by decide⟩,
    ⟨rfl, rfl⟩, ⟨by decide, by decide⟩, by decide, ⟨by decide, by decide, by decide⟩, by decide⟩
/-- CFGY: ROM at 0x003F, the read port at 0x0010, the remainder at 0x0020, all in the shadow range. -/
theorem witness_UnhandledShadowWritesAreForwarded :
    (Live (at_ cfgY ⟨0, 1, 2, 3⟩) ∧ WritePasses cfgY 0x003F ∧ inShadow cfgY 0x003F = true ∧
      AtSegment cfgY 0x003F 0 0x3F ∧ (0 : Nat) < romBanks cfgY) ∧
    (Live (at_ cfgY ⟨4, 1, 2, 3⟩) ∧ romBanks cfgY ≤ 4 ∧ 4 < romBanks cfgY + cfgY.ramBanks ∧
      (at_ cfgY ⟨4, 1, 2, 3⟩).seg.get 0 = 4) ∧
    (WritePasses cfgY 0x0010 ∧ inShadow cfgY 0x0010 = true ∧ AtSegment cfgY 0x0010 0 0x10 ∧
      cfgY.ramRdOff ≤ 0x10 ∧ 0x10 < cfgY.ramRdOff + cfgY.ramBankSize) ∧
    (WritePasses cfgY 0x0020 ∧ inShadow cfgY 0x0020 = true ∧ AtSegment cfgY 0x0020 0 0x20 ∧
      ¬(cfgY.ramRdOff ≤ 0x20 ∧ 0x20 < cfgY.ramRdOff + cfgY.ramBankSize) ∧
      ¬(cfgY.ramWrOff ≤ 0x20 ∧ 0x20 < cfgY.ramWrOff + cfgY.ramBankSize)) :=
  ⟨⟨⟨rfl, rfl⟩, ⟨by decide, by decide⟩, by decide, ⟨by decide, by decide, by decide⟩, by decide⟩,
    ⟨⟨rfl, rfl⟩, by decide, by decide, rfl⟩,
    ⟨⟨by decide, by decide⟩, by decide, ⟨by decide, by decide, by decide⟩, by decide⟩,
    ⟨by decide, by decide⟩, by decide, ⟨by decide, by decide, by decide⟩, by decide⟩
theorem witness_PokeShadowForwardsTheWrite :
    (Live vec ∧ inShadow vec.cfg 0x003D = true ∧ isHot vec.cfg 0x003D = false ∧
      engineHandles vec.cfg vec.seg 0x003D = false) ∧
    inShadow cfgX 0x0010 = true ∧ isHot cfgX 0x0010 = false ∧ engineHandles cfgX ⟨0, 1, 2, 3⟩ 0x0010 = false :=
  ⟨⟨⟨rfl, rfl⟩, by decide⟩, by decide⟩
/-- A consumed write, a forwarded one, an ignored one. -/
theorem witness_PokeResultTellsWhoTookTheWrite :
    ((Instr.pokeHota 0x43).isTransaction = true ∧ (Instr.pokeHota 0x43).isPeek = false ∧ Instr.pokeHota 0x43 ≠ .reset ∧
      exec (.pokeHota 0x43) vec = .next { vec with reply := some (.handled true) } ∧
      Live { vec with reply := some (.handled true) }) ∧
    (∃ t, exec (.pokeShadow 0x0002 0x00) vec = .next t ∧ Live t) ∧
    (∃ t, exec (.pokeRom 0x1400 0xFF) vec = .next t ∧ Live t) :=
  ⟨⟨rfl, rfl, Instr.noConfusion, rfl, rfl, rfl⟩, ⟨_, rfl, rfl, rfl⟩, ⟨_, rfl, rfl, rfl⟩⟩
theorem witness_StepRunsTheDecodedTransaction :
    (Live { vec with pending := [.bus 0x0140000] } ∧ decodeTxn cfg64 seg23 (.bus 0x0140000) = .ok (.peekRom 0x1400)) ∧
    Live vec ∧ vec.pending = [] := ⟨⟨⟨rfl, rfl⟩, rfl⟩, ⟨rfl, rfl⟩, rfl⟩
/-- One row of each kind: at the bus, at the engine, a second name, the strobe. -/
theorem witness_DecodeOfEncodeIsTheOperation :
    ((Instr.peekHot .b).wellFormed cfg64 = true ∧ (Instr.peekHot .b).selected cfg64 seg23 = true ∧
      encode cfg64 (.peekHot .b) = some (.bus 0x0003E00)) ∧
    ((Instr.pokeRamWr 0x1A10 0x5A).wellFormed cfg64 = true ∧ (Instr.pokeRamWr 0x1A10 0x5A).selected cfg64 seg23 = true ∧
      encode cfg64 (.pokeRamWr 0x1A10 0x5A) = some (.bus 0x11A105A)) ∧
    ((Instr.selram 2 5).wellFormed cfg64 = true ∧ (Instr.selram 2 5).selected cfg64 seg23 = true ∧
      encode cfg64 (.selram 2 5) = some (.bus 0x1003E85)) ∧
    (Instr.reset.wellFormed cfg64 = true ∧ Instr.reset.selected cfg64 seg23 = true ∧
      encode cfg64 .reset = some .reset) := by decide
theorem witness_EncodeOfDecodeIsTheWord :
    decodeBus cfg64 seg23 0x01400FF = .ok (.peekRom 0x1400) ∧
    decodeBus cfg64 seg23 0x11400FF = .ok (.pokeRom 0x1400 0xFF) := ⟨rfl, rfl⟩
theorem witness_EveryTransactionDecodes : StateInv vec := inv_vec
/-- The classes of the default map at their first and last addresses. -/
theorem witness_DefaultMapInBits :
    inShadow defaultConfig 0x0000 = true ∧ inShadow defaultConfig 0x003D = true ∧ inShadow defaultConfig 0x003E = false ∧
    inSegRegion defaultConfig 0x1000 = true ∧ inSegRegion defaultConfig 0x1FFF = true ∧
    inSegRegion defaultConfig 0x0FFF = false ∧ inSegRegion defaultConfig 0x2000 = false := by decide
/-- The four classes of a read where they meet: 0x0040 and 0x2000 outside, 0x003D, 0x003E and 0x003F, 0x1000, 0x1A00. -/
theorem witness_PeekDispatchOrder :
    (Live { vec with pending := [.bus (busRead 0x0040)] } ∧ inWindow cfg64 0x0040 = false ∧
      inWindow cfg64 0x2000 = false) ∧
    (inWindow cfg64 0x003D = true ∧ (0x003D#16).toNat < cfg64.shadowLimit.toNat) ∧
    (inWindow cfg64 0x003E = true ∧ ¬(0x003E#16).toNat < cfg64.shadowLimit.toNat ∧ 0x003E#16 = cfg64.hotB ∧
      0x003F#16 = cfg64.hotA) ∧
    (inWindow cfg64 0x1000 = true ∧ ¬(0x1000#16).toNat < cfg64.shadowLimit.toNat ∧
      ¬(0x1000#16 = cfg64.hotA ∨ 0x1000#16 = cfg64.hotB) ∧ AtSegment cfg64 0x1000 0 0 ∧
      vec.seg.get 0 < romBanks cfg64) ∧
    (inWindow cfg64 0x1A00 = true ∧ AtSegment cfg64 0x1A00 2 0x200 ∧ romBanks cfg64 ≤ vec.seg.get 2 ∧
      vec.seg.get 2 < romBanks cfg64 + cfg64.ramBanks) :=
  ⟨⟨⟨rfl, rfl⟩, by decide⟩, by decide, by decide,
    ⟨by decide, by decide, by decide, ⟨by decide, by decide, by decide⟩, by decide⟩,
    by decide, ⟨by decide, by decide, by decide⟩, by decide⟩
theorem witness_PokeDispatchOrder :
    (Live { vec with pending := [.bus (busWrite 0x0FFF 0)] } ∧ inWindow cfg64 0x0FFF = false) ∧
    (inWindow cfg64 0x003F = true ∧ 0x003F#16 = cfg64.hotA) ∧
    (inWindow cfg64 0x003E = true ∧ 0x003E#16 ≠ cfg64.hotA ∧ 0x003E#16 = cfg64.hotB) ∧
    (inWindow cfg64 0x1400 = true ∧ 0x1400#16 ≠ cfg64.hotA ∧ 0x1400#16 ≠ cfg64.hotB ∧ AtSegment cfg64 0x1400 1 0 ∧
      vec.seg.get 1 < romBanks cfg64) ∧
    (inWindow cfg64 0x003D = true ∧ 0x003D#16 ≠ cfg64.hotA ∧ 0x003D#16 ≠ cfg64.hotB ∧
      inSegRegion cfg64 0x003D = false ∧ (0x003D#16).toNat < cfg64.shadowLimit.toNat) ∧
    (inWindow cfg64 0x1A10 = true ∧ 0x1A10#16 ≠ cfg64.hotA ∧ 0x1A10#16 ≠ cfg64.hotB ∧ AtSegment cfg64 0x1A10 2 0x210 ∧
      romBanks cfg64 ≤ vec.seg.get 2 ∧ vec.seg.get 2 < romBanks cfg64 + cfg64.ramBanks) :=
  ⟨⟨⟨rfl, rfl⟩, by decide⟩, by decide, by decide,
    ⟨by decide, by decide, by decide, ⟨by decide, by decide, by decide⟩, by decide⟩, by decide,
    by decide, by decide, by decide, ⟨by decide, by decide, by decide⟩, by decide⟩
theorem witness_ConfigurationNeverChanges : ∃ t, step { vec with pending := [.bus 0x1003F43] } = .next t := ⟨_, rfl⟩
theorem witness_OnlyMapWritesTheSegmentTable :
    (∃ t, exec (.pokeRom 0x1400 0xFF) vec = .next t) ∧ (Instr.pokeRom 0x1400 0xFF).callsMap = false ∧
    (∃ t, exec (.pokeHota 0x43) vec = .next t) ∧ (3 : Nat) < 4 ∧ (3 : Nat) ≠ (0x43#8 >>> 6).toNat :=
  ⟨⟨_, rfl⟩, rfl, ⟨_, rfl⟩, by decide⟩
theorem witness_OnlyListedRowsWriteRam :
    (∃ t, exec (.pokeRamRdport 0x1810 0x77) vec = .next t) ∧ (Instr.pokeRamRdport 0x1810 0x77).mayWriteRam = false :=
  ⟨⟨_, rfl⟩, rfl⟩
theorem witness_PeekNeverChangesTheSegmentTable :
    (∃ t, exec (.peekShadow 0x0000) vec = .next t) ∧ (Instr.peekShadow 0x0000).isPeek = true ∧
    (∃ t, exec (.peekRom 0x1400) vec = .next t) ∧ (Instr.peekRom 0x1400).isPeek = true := ⟨⟨_, rfl⟩, rfl, ⟨_, rfl⟩, rfl⟩
/-- No call, a read and a write; none of the three is a construction. -/
theorem witness_PeripheralIsCalledOnlyInTheShadowRange :
    (∃ t, exec (.peekRom 0x1400) vec = .next t ∧ t.events = []) ∧
    (∃ t v, exec (.peekShadow 0x003D) vec = .next t ∧ t.events = [.periphRead 0x003D v]) ∧
    (∃ t v h, exec (.pokeShadow 0x003D v) vec = .next t ∧ t.events = [.periphWrite 0x003D v h]) ∧
    ∀ image p, Instr.peekRom 0x1400 ≠ .construct image p :=
  ⟨⟨_, rfl, rfl⟩, ⟨_, _, rfl, rfl⟩, ⟨_, 0, _, rfl, rfl⟩, fun _ _ => Instr.noConfusion⟩
theorem witness_ShadowReadIgnoresTheSegmentTable : ∃ t, exec (.peekShadow 0x0010) vecX = .next t := ⟨_, rfl⟩
/-- The last byte of the image, and the last cell behind each port of the last RAM bank. -/
theorem witness_TranslationStaysInsideTheStores :
    resolve cfg64 seg23 0x1FFF = some (.rom 65535) ∧ resolve cfg64 ⟨71, 3, 69, 63⟩ 0x11FF = some (.readPort 4095) ∧
    resolve cfg64 ⟨71, 3, 69, 63⟩ 0x13FF = some (.writePort 4095) := by decide
/-- RAM bank 5 in segments 0 and 2, 95_test_vectors P2. -/
theorem witness_RamRoundTripThroughThePorts :
    StateInv (at_ cfg64 ⟨69, 3, 69, 63⟩) ∧ Live (at_ cfg64 ⟨69, 3, 69, 63⟩) ∧
    WritePasses cfg64 0x1A10 ∧ AtSegment cfg64 0x1A10 2 (cfg64.ramWrOff + 16) ∧
    ReadPasses cfg64 0x1010 ∧ AtSegment cfg64 0x1010 0 (cfg64.ramRdOff + 16) ∧ 16 < cfg64.ramBankSize ∧
    romBanks cfg64 ≤ 69 ∧ (at_ cfg64 ⟨69, 3, 69, 63⟩).seg.get 0 = (at_ cfg64 ⟨69, 3, 69, 63⟩).seg.get 2 :=
  ⟨inv_at valid_cfg64 (by decide) (by decide) (by decide), ⟨rfl, rfl⟩, ⟨by decide, by decide⟩,
    ⟨by decide, by decide, by decide⟩, ⟨by decide, by decide, by decide⟩, ⟨by decide, by decide, by decide⟩,
    by decide, by decide, rfl⟩
/-- 95_test_vectors P1, transactions 1 and 3: Hotspot A and a ROM bank. P2, 1 and 3: Hotspot B and a RAM bank. -/
theorem witness_HotspotWriteIsEffectiveNext :
    (StateInv { vec with pending := [.bus (busWrite (hotAddr cfg64 .a) 0x43), .bus (busRead 0x17FF)] } ∧
      Live { vec with pending := [.bus (busWrite (hotAddr cfg64 .a) 0x43), .bus (busRead 0x17FF)] } ∧
      hotspotBank cfg64 .a 0x43 < romBanks cfg64 ∧ ReadPasses cfg64 0x17FF ∧
      AtSegment cfg64 0x17FF (0x43#8 >>> 6).toNat 0x3FF) ∧
    (StateInv { vec with pending := [.bus (busWrite (hotAddr cfg64 .b) 0x85), .bus (busRead 0x1810)] } ∧
      Live { vec with pending := [.bus (busWrite (hotAddr cfg64 .b) 0x85), .bus (busRead 0x1810)] } ∧
      hotspotBank cfg64 .b 0x85 < romBanks cfg64 + cfg64.ramBanks ∧ romBanks cfg64 ≤ hotspotBank cfg64 .b 0x85 ∧
      ReadPasses cfg64 0x1810 ∧ AtSegment cfg64 0x1810 (0x85#8 >>> 6).toNat (cfg64.ramRdOff + 16) ∧
      16 < cfg64.ramBankSize) :=
  ⟨⟨inv_pending inv_vec _, ⟨rfl, rfl⟩, by decide, ⟨by decide, by decide, by decide⟩, by decide, by decide, by decide⟩,
    inv_pending inv_vec _, ⟨rfl, rfl⟩, by decide, by decide, ⟨by decide, by decide, by decide⟩,
    ⟨by decide, by decide, by decide⟩, by decide⟩
theorem witness_HotspotWriteIsIdempotent :
    (∃ t, Live t ∧ exec (.pokeHota 0x43) vec = .next t) ∧ (∃ t, Live t ∧ exec (.pokeHotb 0x85) vec = .next t) :=
  ⟨⟨_, ⟨rfl, rfl⟩, rfl⟩, ⟨_, ⟨rfl, rfl⟩, rfl⟩⟩
theorem witness_ReadAndWritePriorityDiffer : StateInv vecX ∧ Live vecX ∧ inShadow cfgX 0x0010 = true ∧
    AtSegment cfgX 0x0010 0 (cfgX.ramWrOff + 16) ∧ 16 < cfgX.ramBankSize ∧ romBanks cfgX ≤ vecX.seg.get 0 :=
  ⟨inv_vecX, ⟨rfl, rfl⟩, by decide, ⟨by decide, by decide, by decide⟩, by decide, by decide⟩

end Sys2Proof.Tests
end

section
/-! PROOFS. The checks of a construction in the spec's words (00_scope R10, R11), what `CONSTRUCT` does with their result
(70_reset_and_hazards R200), and from these the statements about what it accepts and where it stops. -/

namespace Sys2Proof.Machine

variable {c : Config} {image : List Byte} {p : Params} {s : State}

/-! The checks in the spec's words. -/

/-- The ranges of 00_scope R10 that `CONSTRUCT` asks for. -/
theorem paramsInRange_iff : paramsInRange p = true ↔ (∃ k, p.segSize = 2 ^ k) ∧ 1 ≤ p.ramBankSize := by
  rw [paramsInRange, Bool.and_eq_true, decide_eq_true_eq, decide_eq_true_eq, pow2_iff]

/-- 00_scope R11 item 3, second part. -/
theorem noStray_iff :
    firstAddr (strayRegion c) addrCount = none ↔ ∀ a, inSegRegion c a = true → inWindow c a = true :=
  firstAddr_all_none.trans (forall_congr' fun _ => strayRegion_false)

/-- 00_scope R11 item 6. -/
theorem noUnclassed_iff : firstAddr (unclassed c) addrCount = none ↔
    ∀ a, inWindow c a = true → inShadow c a = true ∨ isHot c a = true ∨ inSegRegion c a = true :=
  firstAddr_all_none.trans (forall_congr' fun _ => unclassed_false)

theorem unclassed_iff {a : Addr} : unclassed c a = true ↔
    inWindow c a = true ∧ inShadow c a = false ∧ isHot c a = false ∧ inSegRegion c a = false := by
  simp [unclassed, and_assoc]

/-- 00_scope R11 item 7. -/
theorem portsFit_iff : portsFit c = true ↔
    c.ramRdOff + c.ramBankSize ≤ c.segSize ∧ c.ramWrOff + c.ramBankSize ≤ c.segSize ∧
      (c.ramRdOff + c.ramBankSize ≤ c.ramWrOff ∨ c.ramWrOff + c.ramBankSize ≤ c.ramRdOff) := by
  simp only [portsFit, Bool.and_eq_true, decide_eq_true_eq, and_assoc]

/-- A check lets a configuration through where its condition holds and the checks behind it let it through. -/
theorem check_eq_none_iff {P : Prop} [Decidable ¬P] {e : ConfigError} {rest : Option ConfigError} :
    (if ¬P then some e else rest) = none ↔ P ∧ rest = none := by
  by_cases h : P <;> simp [h]

/-- The eight checks let a configuration through exactly where the eight items of 00_scope R11 hold. -/
theorem checkConfig_eq_none_iff : checkConfig c = none ↔
    c.romLen % c.segSize = 0 ∧ (1 ≤ romBanks c ∧ romBanks c ≤ maxBanks) ∧ c.ramBanks ≤ maxBanks ∧
    (c.segBase.toNat + segCount * c.segSize ≤ addrCount ∧ firstAddr (strayRegion c) addrCount = none) ∧
    (c.hotA ≠ c.hotB ∧ inWindow c c.hotA = true ∧ inWindow c c.hotB = true) ∧
    (c.shadowLimit.toNat ≤ c.hotA.toNat ∧ c.shadowLimit.toNat ≤ c.hotB.toNat) ∧
    firstAddr (unclassed c) addrCount = none ∧ portsFit c = true ∧ c.startBank < romBanks c := by
  unfold checkConfig
  simp only [ne_eq, check_eq_none_iff]
  cases firstAddr (unclassed c) addrCount with
  | some a => simp
  | none => simp only [check_eq_none_iff, true_and, and_true]

/-- The valid configurations are those in the ranges of 00_scope R10 that pass every check of R11. -/
theorem validConfig_iff :
    ValidConfig c ↔ paramsInRange c.toParams = true ∧ checkConfig c = none := by
  rw [paramsInRange_iff, checkConfig_eq_none_iff, noStray_iff, noUnclassed_iff, portsFit_iff]
  constructor
  · intro v
    exact ⟨⟨v.segSizePow2, v.ramBankSizePos⟩, v.wholeBanks, v.romBanksRange, v.ramBanksRange,
      ⟨v.regionFits, v.regionInWindow⟩, ⟨v.hotsDiffer, v.hotAInWindow, v.hotBInWindow⟩, v.shadowBelow, v.classed,
      ⟨v.rdPortInside, v.wrPortInside, v.portsDisjoint⟩, v.startBankRange⟩
  · rintro ⟨⟨hpow, hsize⟩, hwhole, hrom, hram, ⟨hfit, hregion⟩, ⟨hdiff, hA, hB⟩, hshadow, hclassed,
      ⟨hrd, hwr, hdisj⟩, hstart⟩
    exact ⟨hpow, hsize, hwhole, hrom, hram, hfit, hregion, hdiff, hA, hB, hshadow, hclassed, hrd, hwr, hdisj, hstart⟩

/-! What `CONSTRUCT` does with the result of the checks (70_reset_and_hazards R200). -/

theorem exec_construct : exec (.construct image p) s = execConstruct image p s := rfl

theorem construct_outOfRange (h : paramsInRange p = false) :
    exec (.construct image p) s = .fault (.parameterRange p.segSize p.ramBankSize) := by
  simp [exec_construct, execConstruct, h]

theorem construct_checkFails {e : ConfigError} (hp : paramsInRange p = true)
    (h : checkConfig (makeConfig image p) = some e) :
    exec (.construct image p) s = .fault (.configError e) := by
  simp [exec_construct, execConstruct, hp, h]

/-- On a valid configuration the new machine is reset. -/
theorem construct_valid (v : ValidConfig (makeConfig image p)) :
    exec (.construct image p) s = resetBody (freshState (makeConfig image p) s) := by
  obtain ⟨hp, h⟩ := validConfig_iff.mp v
  simp [exec_construct, execConstruct, show paramsInRange p = true from hp, h]

/-- The reset of a new machine with a valid configuration answers: its draws and the start bank are ROM banks. -/
theorem construct_next (v : ValidConfig (makeConfig image p)) : ∃ t, exec (.construct image p) s = .next t :=
  ⟨_, (construct_valid v).trans (resetBody_eq v.romBanksRange.1 v.startBankRange)⟩

/-- The outcome of a construction that belongs to a result of the checks. -/
def ConstructOutcome (image : List Byte) (p : Params) (s : State) : Option ConfigError → Prop
  | some e => exec (.construct image p) s = .fault (.configError e)
  | none => ∃ t, exec (.construct image p) s = .next t

theorem constructOutcome_checkConfig (hp : paramsInRange p = true) :
    ConstructOutcome image p s (checkConfig (makeConfig image p)) := by
  cases h : checkConfig (makeConfig image p) with
  | some e => exact construct_checkFails hp h
  | none => exact construct_next (validConfig_iff.mpr ⟨hp, h⟩)

/-- One step along the chain of checks: what holds of the chain's result holds of the code where the check `A` fails,
worded `B`, and else of the result of the checks behind it. -/
theorem ite_of_check {F : Option ConfigError → Prop} {A B G : Prop} [Decidable A] [Decidable B] {e : ConfigError}
    {rest : Option ConfigError} (hAB : A ↔ B) (hrest : F rest → G) (h : F (if A then some e else rest)) :
    if B then F (some e) else G := by
  by_cases hA : A
  · rw [if_pos (hAB.mp hA)]
    rwa [if_pos hA] at h
  · rw [if_neg (mt hAB.mpr hA)]
    rw [if_neg hA] at h
    exact hrest h

end Sys2Proof.Machine

namespace Sys2Proof.Proofs

open Machine

/-- Settles O11: the range check comes before the checks of 00_scope R11. -/
theorem constructRefusesOutOfRange : Obligations.ConstructRefusesOutOfRange := by
  intro image p s h
  exact construct_outOfRange (Bool.eq_false_iff.mpr (mt paramsInRange_iff.mp h))

/-- Settles O9: a construction that answers has passed both checks, which together are validity. -/
theorem constructAcceptsExactlyValid : Obligations.ConstructAcceptsExactlyValid := by
  intro image p s
  constructor
  · rintro ⟨t, h⟩
    obtain ⟨hp, hc, -⟩ := execConstruct_next h
    exact validConfig_iff.mpr ⟨hp, hc⟩
  · exact construct_next

/-- Settles O10, along the chain of checks in its order; item 6 is the scan for the lowest unclassed address. -/
theorem constructStopsAtFirstFailure : Obligations.ConstructStopsAtFirstFailure := by
  intro image p s hpow hsize
  have hrange : paramsInRange p = true := paramsInRange_iff.mpr ⟨hpow, hsize⟩
  refine (ite_of_check Iff.rfl <| ite_of_check Iff.rfl <| ite_of_check Iff.rfl <|
    ite_of_check (not_congr (and_congr Iff.rfl noStray_iff)) <| ite_of_check Iff.rfl <|
    ite_of_check (not_congr le_min_iff.symm) fun h => ?_)
    (constructOutcome_checkConfig (image := image) (s := s) hrange)
  cases hf : firstAddr (unclassed (makeConfig image p)) addrCount with
  | some a =>
    rw [hf] at h
    obtain ⟨ha, hlow⟩ := firstAddr_all_some hf
    obtain ⟨hwindow, hshadow, hhot, hregion⟩ := unclassed_iff.mp ha
    rw [if_pos ⟨a, hwindow, hshadow, hhot, hregion⟩]
    exact ⟨a, h, hwindow, hshadow, hhot, hregion, fun b hb => unclassed_false.mp (hlow b hb)⟩
  | none =>
    rw [hf] at h
    have hclassed : ¬∃ a, unclassed (makeConfig image p) a = true := fun ⟨a, ha⟩ =>
      Bool.false_ne_true ((firstAddr_all_none.mp hf a).symm.trans ha)
    simp only [unclassed_iff] at hclassed
    rw [if_neg hclassed]
    exact ite_of_check (not_congr portsFit_iff) (ite_of_check Iff.rfl id) h

end Sys2Proof.Proofs
end

section
/-! PROOFS. The state (10_state): what every effect of a transaction leaves as it was, that every operation on the state
keeps the invariant, and from these the statements about power-on, the configuration, the segment table, the RAM store and
the invariant. -/

namespace Sys2Proof.Machine

variable {s t : State} {i : Instr} {v : Byte} {b j k : Nat}

/-! What an effect leaves as it was. -/

/-- No effect touches the configuration (10_state R29, R34). -/
theorem effect_cfg (he : Effect s i t) : t.cfg = s.cfg := by
  cases he with
  | reset t h =>
    obtain ⟨hcfg, -⟩ := resetBody_next h
    exact hcfg
  | _ => rfl

theorem callsMap_of_isHotspotWrite (h : isHotspotWrite i v) : i.callsMap = true := by
  rcases h with rfl | rfl | ⟨_, _, -, rfl | rfl⟩ <;> rfl

/-- Only the rows that call `map` have an effect on the segment table (10_state R25). -/
theorem effect_seg (he : Effect s i t) (hi : i.callsMap = false) : t.seg = s.seg := by
  cases he with
  | mapped i v b hw hb =>
    rw [callsMap_of_isHotspotWrite hw] at hi
    cases hi
  | reset t h => cases hi
  | _ => rfl

/-- Only the rows of 10_state R31 have an effect on the RAM store. -/
theorem effect_ramRead (he : Effect s i t) (hi : i.mayWriteRam = false) : ramRead t j = ramRead s j := by
  cases he with
  | disturbed | stored | reset => cases hi
  | _ => rfl

/-- `MAP`, mapping or faulting, leaves the RAM store (40_engine R110). -/
theorem execMap_ramRead (h : execMap b k s = .next t) : ramRead t j = ramRead s j := by
  obtain ⟨-, ⟨-, -, rfl⟩ | ⟨-, rfl⟩ | ⟨-, -, rfl⟩⟩ := execMap_next h <;> rfl

/-- The internal operations call `map`. -/
theorem isTransaction_of_callsMap (h : i.callsMap = false) : i.isTransaction = true := by
  cases i with
  | map | construct => cases h
  | _ => rfl

/-- `map` into a segment leaves the entries of the others. -/
theorem setSeg_get_of_ne (hk : k < 4) (hj : j < 4) (hne : j ≠ k) : (setSeg k b s).seg.get j = s.seg.get j := by
  rw [setSeg_seg, SegTable.get_set hk hj, if_neg hne]

/-- A Hotspot A write, mapping or faulting, leaves every entry but the one it names (41_scheme R153). -/
theorem writeHotA_get_of_ne (h : writeHotA v s = .next t) (hj : j < 4) (hne : j ≠ hsvSeg v) :
    t.seg.get j = s.seg.get j := by
  obtain ⟨-, rfl⟩ | ⟨-, rfl⟩ := writeHotA_next h
  · exact setSeg_get_of_ne (hsvSeg_lt v) hj hne
  · rfl

/-- A Hotspot B write, mapping or faulting, leaves every entry but the one it names (41_scheme R154). -/
theorem writeHotB_get_of_ne (h : writeHotB v s = .next t) (hj : j < 4) (hne : j ≠ hsvSeg v) :
    t.seg.get j = s.seg.get j := by
  obtain ⟨-, rfl⟩ | ⟨-, rfl⟩ := writeHotB_next h
  · exact setSeg_get_of_ne (hsvSeg_lt v) hj hne
  · rfl

end Sys2Proof.Machine

namespace Sys2Proof

open Machine

variable {s t : State} {i : Instr} {a : Addr} {v : Byte} {b k n : Nat}

/-! Every operation on the state keeps the invariant. -/

/-- The invariant does not speak of the pending transactions. -/
theorem StateInv.withPending (h : StateInv s) (p : List Txn) : StateInv { s with pending := p } := { h with }

/-- The invariant does not speak of the result and the event record, and a RAM initialisation that took a past draw
stays past when more are taken. -/
theorem StateInv.withOutput (h : StateInv s) (e : List Event) (r : Option Reply) (hn : s.draws ≤ n) :
    StateInv { s with events := e, reply := r, draws := n } :=
  { h with ramInitPast := h.ramInitPast.trans_le hn }

theorem StateInv.answer (h : StateInv s) (r : Reply) : StateInv (answer r s) := { h with }

theorem StateInv.periphRead (h : StateInv s) : StateInv (periphRead a s) :=
  h.withOutput _ _ (Nat.le_succ _)

theorem StateInv.periphWrite (h : StateInv s) : StateInv (periphWrite a v s) :=
  h.withOutput _ _ (Nat.le_succ _)

/-- A refusal at a machine with no fault leaves one mark (60_exceptions R187). -/
theorem StateInv.refuse (h : StateInv s) (hl : Live s) (r : RefusalRec) : StateInv (refuse r s) :=
  { h with oneMark := .inl hl.1 }

/-- The fault F1 at a machine with no refusal mark leaves one mark (60_exceptions R181, R187). -/
theorem StateInv.raise (h : StateInv s) (hl : Live s) (hb : bankCount s.cfg ≤ b) (hk : k < 4) :
    StateInv (raise (.bankOutOfRange b k) s) :=
  { h with
    oneMark := .inr hl.2
    faultRecord := fun _ hr => ⟨b, k, (Option.some.inj hr).symm, hb, hk⟩ }

/-- Mapping a legal bank keeps every entry legal (10_state R24). -/
theorem StateInv.setSeg (h : StateInv s) (hb : b < bankCount s.cfg) (hk : k < 4) : StateInv (setSeg k b s) :=
  { h with
    segLegal := fun j hj => by
      rw [setSeg_seg, setSeg_cfg, SegTable.get_set hk hj]
      split
      · exact hb
      · exact h.segLegal j hj }

/-- A write to a cell of the store keeps its list canonical and inside the store (10_state R30). -/
theorem StateInv.ramWrite (h : StateInv s) (hk : k < ramLen s.cfg) : StateInv (ramWrite k v s) :=
  { h with
    ramWf := Memory.wf_write h.ramWf
    ramWithin := Memory.within_write h.ramWithin hk }

/-- A reset maps ROM banks only, and its RAM initialisation takes the last of its draws (70_reset_and_hazards R202). -/
theorem StateInv.resetBody (h : StateInv s) (hr : resetBody s = .next t) : StateInv t := by
  obtain ⟨hrom, -⟩ := h.config.romBanksRange
  have hstart := h.config.startBankRange
  rw [resetBody_eq hrom hstart] at hr
  cases hr
  exact
    { h with
      segLegal := fun j _ => (resetSeg_lt hrom hstart j).trans_le (Nat.le_add_right _ _)
      ramWf := rfl
      ramWithin := rfl
      ramInitPast := Nat.lt_succ_self _ }

/-- Every effect of a transaction at an unmarked machine keeps the invariant. -/
theorem StateInv.effect (h : StateInv s) (hl : Live s) (he : Effect s i t) : StateInv t := by
  cases he with
  | readByte i b n hn => exact h.withOutput _ _ hn
  | kept a b n hn => exact h.withOutput _ _ hn
  | disturbed a b w k n hn ht =>
    exact (h.ramWrite (writePort_lt (readTarget_some ht).2)).withOutput _ _ hn
  | asked => exact h.periphRead
  | refused i r => exact h.refuse hl r
  | mapped i v b hi hb => exact (h.setSeg hb (hsvSeg_lt v)).answer _
  | faulted i v b hi hb => exact h.raise hl hb (hsvSeg_lt v)
  | stored a v k ht => exact (h.ramWrite (writePort_lt (writeTarget_some ht).2)).answer _
  | ignored => exact h.answer _
  | forwarded => exact h.periphWrite
  | reset t hr => exact h.resetBody hr

end Sys2Proof

namespace Sys2Proof.Proofs

open Machine

/-- Settles O5: the three drawn entries are draws below 64, the number of ROM banks of the model's image. -/
theorem powerOnValues : Obligations.PowerOnValues := by
  have hbanks : romBanks State.reset.cfg = 63 + 1 := rfl
  unfold Obligations.PowerOnValues
  rw [hbanks]
  exact ⟨rfl, (Config.freeBelow 63 1).isLt, (Config.freeBelow 63 2).isLt, (Config.freeBelow 63 3).isLt, rfl, rfl, rfl⟩

/-- Settles O40: a step does nothing or has the effect of a transaction, and no effect touches the configuration. -/
theorem configurationNeverChanges : Obligations.ConfigurationNeverChanges := by
  intro s t h
  obtain ⟨-, ⟨-, rfl⟩ | ⟨rest, _, -, he⟩⟩ := step_effect h
  · rfl
  · exact effect_cfg (s := { s with pending := rest }) he

/-- Settles O41: the first clause over the effects of transactions, the second over what a hotspot write can do. -/
theorem onlyMapWritesTheSegmentTable : Obligations.OnlyMapWritesTheSegmentTable := by
  constructor
  · intro s t i h hi
    exact effect_seg (exec_effect (isTransaction_of_callsMap hi) h).2 hi
  · intro s t v j h hj hne
    rw [← hsvSeg_eq] at hne
    rcases h with h | h
    · obtain ⟨-, -, hw⟩ := execPokeHota_next h
      exact writeHotA_get_of_ne hw hj hne
    · obtain ⟨-, -, hw⟩ := execPokeHotb_next h
      exact writeHotB_get_of_ne hw hj hne

/-- Settles O42: a transaction by its effect; of the internal operations only `MAP` is not among the listed rows. -/
theorem onlyListedRowsWriteRam : Obligations.OnlyListedRowsWriteRam := by
  intro s t i h hi j
  cases i with
  | map b k => exact execMap_ramRead h
  | construct image p => cases hi
  | _ => exact effect_ramRead (exec_effect rfl h).2 hi

/-- Settles O2: a step does nothing or has the effect of a transaction, and every effect keeps the invariant. -/
theorem stepKeepsInvariant : Obligations.StepKeepsInvariant := by
  intro s t hs h
  obtain ⟨hl, ⟨-, rfl⟩ | ⟨rest, _, -, he⟩⟩ := step_effect h
  · exact hs
  · exact (hs.withPending rest).effect hl he

end Sys2Proof.Proofs
end

section
/-! PROOFS. The memory (20_memory): where translation can land, what a second write of one value to one hotspot does, what a
step does with the oldest pending transaction, and from these the statements about bounds, idempotency and the step. -/

namespace Sys2Proof.Machine

variable {c : Config} {seg : SegTable} {a : Addr} {x : Target} {s t : State} {v : Byte} {r : Reply} {b i : Nat}

/-! Where translation can land. -/

/-- A target lies inside the store it names: the image (10_state R29) or the RAM store (10_state R30). -/
def Target.InStore (c : Config) : Target → Prop
  | .rom k => k < c.romLen
  | .readPort k | .writePort k => k < ramLen c
  | .gap => True

/-- Every target an address resolves to lies inside its store (20_memory R61, R62). -/
theorem resolve_inStore (h : resolve c seg a = some x) : x.InStore c := by
  have hregion := inSegRegion_of_resolve h
  obtain ⟨-, hoff⟩ := segDecode_lt hregion
  rw [resolve_eq hregion] at h
  rcases bankTarget_cases h with ⟨hrom, rfl⟩ | ⟨hram, k, hport, rfl⟩ | ⟨hram, k, hport, rfl⟩ | ⟨-, -, rfl⟩
  · exact rom_index_lt hrom hoff
  · exact ram_index_lt hram (portOf_read hport).1
  · exact ram_index_lt hram (portOf_write hport).1
  · trivial

/-! What a second write of one value to one hotspot does. -/

/-- Mapping what is mapped already and answering the same again changes nothing. -/
theorem answer_setSeg_idem : answer r (setSeg i b (answer r (setSeg i b s))) = answer r (setSeg i b s) := by
  simp [answer, setSeg, SegTable.set_set]

/-- A machine that has just raised a fault is marked (60_exceptions R182). -/
theorem not_live_raise {f : FaultRec} : ¬Live (raise f s) := fun hl => Option.some_ne_none f hl.1

/-- `map` and an answer, where they end unmarked, keep the configuration, and leave a state they leave alone. -/
theorem mapThen_answer_idem (hl : Live t) (h : mapThen b i s (fun s => .next (answer r s)) = .next t) :
    t.cfg = s.cfg ∧ mapThen b i t (fun s => .next (answer r s)) = .next t := by
  rcases mapThen_cases (fun s => .next (answer r s)) b i s with ⟨hi, hb, e⟩ | ⟨-, e⟩ | ⟨-, -, e⟩ <;>
    rw [e] at h <;> cases h
  · refine ⟨rfl, ?_⟩
    rw [mapThen_ok (s := answer r (setSeg i b s)) hi hb, answer_setSeg_idem]
  · exact absurd hl not_live_raise
  · exact absurd hl not_live_raise

/-- 41_scheme R153 with 20_memory R56. -/
theorem writeHotA_idem (hl : Live t) (h : writeHotA v s = .next t) :
    t.cfg = s.cfg ∧ writeHotA v t = .next t := mapThen_answer_idem hl h

/-- 41_scheme R154 with 20_memory R56: the bank index is the same, since the configuration is. -/
theorem writeHotB_idem (hl : Live t) (h : writeHotB v s = .next t) :
    t.cfg = s.cfg ∧ writeHotB v t = .next t := by
  obtain ⟨hcfg, h'⟩ := mapThen_answer_idem hl h
  refine ⟨hcfg, ?_⟩
  rw [writeHotB, hcfg]
  exact h'

/-- `POKE.HOTA` at an unmarked machine that selects it (30_encoding R88). -/
theorem execPokeHota_eq (hl : Live s) (hs : hotASelected s.cfg = true) : execPokeHota v s = writeHotA v s := by
  rw [execPokeHota, whenLive_of_live hl, if_pos hs]

/-- `POKE.HOTB` at an unmarked machine that selects it (30_encoding R88). -/
theorem execPokeHotb_eq (hl : Live s) (hs : hotBSelected s.cfg = true) : execPokeHotb v s = writeHotB v s := by
  rw [execPokeHotb, whenLive_of_live hl, if_pos hs]

/-! What a step does with nothing pending; `step_of_decode` is its companion. -/

theorem step_of_pending_nil (hl : Live s) (hp : s.pending = []) : step s = .next s := by
  rw [step, whenLive_of_live hl, hp]

end Sys2Proof.Machine

namespace Sys2Proof.Proofs

open Machine

/-- Settles O46: the three kinds of target that name a byte, each by the bound of its own store. -/
theorem translationStaysInsideTheStores : Obligations.TranslationStaysInsideTheStores := by
  intro c seg a
  exact ⟨fun _ h => resolve_inStore h, fun _ h => resolve_inStore h, fun _ h => resolve_inStore h⟩

/-- Settles O49: the first write leaves the configuration, so the second is selected too and maps the same bank. -/
theorem hotspotWriteIsIdempotent : Obligations.HotspotWriteIsIdempotent := by
  intro s t v hl
  constructor
  · intro h
    obtain ⟨-, hs, hw⟩ := execPokeHota_next h
    obtain ⟨hcfg, hw'⟩ := writeHotA_idem hl hw
    exact (execPokeHota_eq hl (hcfg ▸ hs)).trans hw'
  · intro h
    obtain ⟨-, hs, hw⟩ := execPokeHotb_next h
    obtain ⟨hcfg, hw'⟩ := writeHotB_idem hl hw
    exact (execPokeHotb_eq hl (hcfg ▸ hs)).trans hw'

/-- Settles O32: one lemma for the oldest pending transaction, one for none pending. -/
theorem stepRunsTheDecodedTransaction : Obligations.StepRunsTheDecodedTransaction :=
  ⟨fun _ _ _ _ hl hp hd => step_of_decode hl hp hd, fun _ hl hp => step_of_pending_nil hl hp⟩

end Sys2Proof.Proofs
end

section
/-! PROOFS. Encoding (30_encoding): for each row the condition decode takes it under, which is well-formedness with
selection by the segment table; decode answers only rows taken, each with the word it was read from, and every taken row
decodes from its word. From these the statements about decode, the encoder and the second names, and the default map. -/

namespace Sys2Proof

open Machine

variable {c : Config} {t : SegTable} {a : Addr} {v : Byte} {w : BusWord} {i : Instr} {x : Txn} {g : Target} {b : Nat}
  {e : DecodeError}

/-! The words. -/

/-- A write is put together again from its three fields (30_encoding R81). -/
theorem busWrite_fields (h : wordW w = true) : busWrite (wordA w) (wordD w) = w := by
  have hw := w.isLt
  rw [wordW_eq, decide_eq_true_eq] at h
  apply BitVec.eq_of_toNat_eq
  rw [busWrite_toNat, wordA_toNat, wordD_toNat]
  omega

/-- The mask of the encoder's reads keeps the address field and clears the data field (30_encoding R81). -/
theorem clearData_toNat (w : BusWord) : (w &&& 0x1FFFF00#25).toNat = w.toNat / 256 * 256 := by
  have hw := w.isLt
  have hhigh : (w.toNat &&& 0x1FFFF00) / 2 ^ 8 = w.toNat / 2 ^ 8 % 2 ^ 17 := by
    rw [Nat.and_div_two_pow, ← Nat.and_two_pow_sub_one_eq_mod]
  have hlow : (w.toNat &&& 0x1FFFF00) % 2 ^ 8 = 0 := by
    rw [Nat.and_mod_two_pow]
    exact Nat.and_zero _
  rw [BitVec.toNat_and]
  change w.toNat &&& 0x1FFFF00 = _
  omega

/-- A read is put together again from its address, its data field cleared (30_encoding R81). -/
theorem busRead_fields (h : wordW w = false) : busRead (wordA w) = w &&& 0x1FFFF00#25 := by
  rw [wordW_eq, decide_eq_false_iff_not] at h
  apply BitVec.eq_of_toNat_eq
  rw [busRead_toNat, wordA_toNat, clearData_toNat]
  omega

/-! The condition decode takes a row under. -/

/-- The engine's row of `peek` for a target (30_encoding R89). -/
def Machine.Target.peekRow (a : Addr) : Target → Instr
  | .rom _ => .peekRom a
  | .readPort _ => .peekRamRd a
  | .writePort _ => .peekRamWrport a
  | .gap => .peekRamGap a

/-- The engine's row of `poke` for a target (30_encoding R89). -/
def Machine.Target.pokeRow (a : Addr) (v : Byte) : Target → Instr
  | .rom _ => .pokeRom a v
  | .readPort _ => .pokeRamRdport a v
  | .writePort _ => .pokeRamWr a v
  | .gap => .pokeRamGap a v

/-- The condition under which decode answers the row and `exec` runs it (30_encoding R87 to R89). A second name has that
of the operation it names (R96), an operation decode never answers its check alone. -/
def Instr.Taken (c : Config) (t : SegTable) : Instr → Prop
  | .peekShadow a => inShadow c a = true
  | .peekHot h => inWindow c (hotAddr c h) = true ∧ (h = .a ∨ c.hotA ≠ c.hotB) ∧ inShadow c (hotAddr c h) = false
  | .peekRom a => ∃ k, readTarget c t a = some (.rom k)
  | .peekRamRd a => ∃ k, readTarget c t a = some (.readPort k)
  | .peekRamWrport a => ∃ k, readTarget c t a = some (.writePort k)
  | .peekRamGap a => readTarget c t a = some .gap
  | .peekOow a | .pokeOow a _ => inWindow c a = false
  | .pokeHota _ | .selrom _ _ => inWindow c c.hotA = true
  | .pokeHotb _ | .selram _ _ => inWindow c c.hotB = true ∧ c.hotA ≠ c.hotB
  | .pokeRom a _ => ∃ k, writeTarget c t a = some (.rom k)
  | .pokeRamWr a _ => ∃ k, writeTarget c t a = some (.writePort k)
  | .pokeRamRdport a _ => ∃ k, writeTarget c t a = some (.readPort k)
  | .pokeRamGap a _ => writeTarget c t a = some .gap
  | .pokeShadow a _ => inShadow c a = true ∧ isHot c a = false ∧ inSegRegion c a = false
  | .reset | .map _ _ => True
  | .construct _ p => paramsInRange p = true

/-- Bank and offset decide the kind of target: the row's conditions of 30_encoding R89. -/
theorem bankTarget_kind_iff :
    ((∃ k, bankTarget c b (segDecode c a).2 = some (.rom k)) ↔ isRom c b = true) ∧
    ((∃ k, bankTarget c b (segDecode c a).2 = some (.readPort k)) ↔ inReadPort c a = true ∧ isRam c b = true) ∧
    ((∃ k, bankTarget c b (segDecode c a).2 = some (.writePort k)) ↔ inWritePort c a = true ∧ isRam c b = true) ∧
    (bankTarget c b (segDecode c a).2 = some .gap ↔ inGap c a = true ∧ isRam c b = true) := by
  by_cases hrom : isRom c b = true
  · simp [bankTarget_rom hrom, isRam_eq_false_of_isRom hrom, hrom]
  · by_cases hram : isRam c b = true
    · cases hport : portOf c (segDecode c a).2 <;>
        simp [bankTarget_ram hram, hport, inReadPort, inWritePort, inGap, hrom, hram]
    · simp [bankTarget, hrom, hram]

theorem readTarget_eq_some_iff : readTarget c t a = some g ↔
    readsSegment c a = true ∧ bankTarget c (t.get (segDecode c a).1) (segDecode c a).2 = some g := by
  constructor
  · intro h
    obtain ⟨hseg, -⟩ := readTarget_some h
    exact ⟨hseg, (readTarget_eq hseg).symm.trans h⟩
  · rintro ⟨hseg, h⟩
    exact (readTarget_eq hseg).trans h

theorem writeTarget_eq_some_iff : writeTarget c t a = some g ↔
    writesSegment c a = true ∧ bankTarget c (t.get (segDecode c a).1) (segDecode c a).2 = some g := by
  constructor
  · intro h
    obtain ⟨hseg, -⟩ := writeTarget_some h
    exact ⟨hseg, (writeTarget_eq hseg).symm.trans h⟩
  · rintro ⟨hseg, h⟩
    exact (writeTarget_eq hseg).trans h

/-- Well-formedness with selection is the condition decode takes the row under (30_encoding R90). -/
theorem taken_iff : i.Taken c t ↔ i.wellFormed c = true ∧ i.selected c t = true := by
  cases i with
  | peekRom a | peekRamRd a | peekRamWrport a | peekRamGap a =>
    obtain ⟨hrom, hread, hwrite, hgap⟩ := bankTarget_kind_iff (c := c) (a := a) (b := t.get (segDecode c a).1)
    simp [Instr.Taken, Instr.wellFormed, Instr.selected, readTarget_eq_some_iff, hrom, hread, hwrite, hgap, and_assoc]
  | pokeRom a v | pokeRamWr a v | pokeRamRdport a v | pokeRamGap a v =>
    obtain ⟨hrom, hread, hwrite, hgap⟩ := bankTarget_kind_iff (c := c) (a := a) (b := t.get (segDecode c a).1)
    simp [Instr.Taken, Instr.wellFormed, Instr.selected, writeTarget_eq_some_iff, hrom, hread, hwrite, hgap, and_assoc]
  | _ => simp [Instr.Taken, Instr.wellFormed, Instr.selected, hotDecodes, hotAddr, and_assoc]

/-! What decode answers is a row taken, issued by the word it was read from. -/

theorem decodeRead_sound (h : decodeRead c t a = .ok i) : i.Taken c t ∧ encode c i = some (.bus (busRead a)) := by
  obtain ⟨hw, rfl⟩ | ⟨hs, rfl⟩ | ⟨hw, hs, y, rfl, hy, rfl⟩ | ⟨ht, rfl⟩ | ⟨ht, rfl⟩ | ⟨ht, rfl⟩ | ⟨ht, rfl⟩ :=
    decodeRead_cases h
  · exact ⟨hw, rfl⟩
  · exact ⟨hs, rfl⟩
  · exact ⟨⟨hw, hy, hs⟩, rfl⟩
  all_goals exact ⟨ht, rfl⟩

theorem decodeWrite_sound (h : decodeWrite c t a v = .ok i) :
    i.Taken c t ∧ encode c i = some (.bus (busWrite a v)) := by
  obtain ⟨hw, rfl⟩ | ⟨hw, rfl, rfl⟩ | ⟨hw, rfl, hne, rfl⟩ | ⟨ht, rfl⟩ | ⟨ht, rfl⟩ | ⟨ht, rfl⟩ | ⟨ht, rfl⟩ |
    ⟨hs, hh, hg, rfl⟩ := decodeWrite_cases h
  · exact ⟨hw, rfl⟩
  · exact ⟨hw, rfl⟩
  · exact ⟨⟨hw, hne⟩, rfl⟩
  · exact ⟨ht, rfl⟩
  · exact ⟨ht, rfl⟩
  · exact ⟨ht, rfl⟩
  · exact ⟨ht, rfl⟩
  · exact ⟨⟨hs, hh, hg⟩, rfl⟩

/-- The word is the one decoded, a read's data field cleared. -/
theorem decodeBus_sound (h : decodeBus c t w = .ok i) :
    i.Taken c t ∧ encode c i = some (.bus (if w.msb then w else w &&& 0x1FFFF00#25)) := by
  obtain ⟨hw, hd⟩ | ⟨hw, hd⟩ := decodeBus_cases (c := c) (t := t) w
  · have hmsb : w.msb = false := hw
    obtain ⟨ht, he⟩ := decodeRead_sound (hd.symm.trans h)
    exact ⟨ht, by simp [he, hmsb, busRead_fields hw]⟩
  · have hmsb : w.msb = true := hw
    obtain ⟨ht, he⟩ := decodeWrite_sound (hd.symm.trans h)
    exact ⟨ht, by simp [he, hmsb, busWrite_fields hw]⟩

theorem decodeTxn_taken (h : decodeTxn c t x = .ok i) : i.Taken c t := by
  cases x with
  | reset => cases h; trivial
  | bus w =>
    obtain ⟨ht, -⟩ := decodeBus_sound (w := w) h
    exact ht

/-! Every row taken decodes from its word. -/

theorem isHot_eq_false : isHot c a = false ↔ a ≠ c.hotA ∧ a ≠ c.hotB := by
  simp [isHot]

theorem decodeRead_target (h : readTarget c t a = some g) : decodeRead c t a = .ok (g.peekRow a) := by
  obtain ⟨hseg, hres⟩ := readTarget_some h
  simp only [readsSegment, Bool.and_eq_true, Bool.not_eq_true', isHot_eq_false] at hseg
  obtain ⟨⟨⟨hw, hs⟩, ha, hb⟩, -⟩ := hseg
  cases g <;> simp [decodeRead, hw, hs, ha, hb, hres, Target.peekRow]

theorem decodeWrite_target (h : writeTarget c t a = some g) : decodeWrite c t a v = .ok (g.pokeRow a v) := by
  obtain ⟨hseg, hres⟩ := writeTarget_some h
  simp only [writesSegment, Bool.and_eq_true, Bool.not_eq_true', isHot_eq_false] at hseg
  obtain ⟨⟨hw, ha, hb⟩, hg⟩ := hseg
  cases g <;> simp [decodeWrite, hw, ha, hb, hg, hres, Target.pokeRow]

theorem decodeRead_outside (h : inWindow c a = false) : decodeRead c t a = .ok (.peekOow a) := by
  simp [decodeRead, h]

theorem decodeWrite_outside (h : inWindow c a = false) : decodeWrite c t a v = .ok (.pokeOow a v) := by
  simp [decodeWrite, h]

theorem decodeRead_hot {y : Hotspot} (hw : inWindow c (hotAddr c y) = true) (hy : y = .a ∨ c.hotA ≠ c.hotB)
    (hs : inShadow c (hotAddr c y) = false) : decodeRead c t (hotAddr c y) = .ok (.peekHot y) := by
  cases y with
  | a =>
    rw [hotAddr] at hw hs
    simp [decodeRead, hotAddr, hw, hs]
  | b =>
    rw [hotAddr] at hw hs
    have hne : c.hotB ≠ c.hotA := (hy.resolve_left (by decide)).symm
    simp [decodeRead, hotAddr, hw, hs, hne]

theorem decodeWrite_hotA (hw : inWindow c c.hotA = true) : decodeWrite c t c.hotA v = .ok (.pokeHota v) := by
  simp [decodeWrite, hw]

theorem decodeWrite_hotB (hw : inWindow c c.hotB = true) (hne : c.hotA ≠ c.hotB) :
    decodeWrite c t c.hotB v = .ok (.pokeHotb v) := by
  simp [decodeWrite, hw, hne.symm]

theorem decodeWrite_shadow (hs : inShadow c a = true) (hh : isHot c a = false) (hg : inSegRegion c a = false) :
    decodeWrite c t a v = .ok (.pokeShadow a v) := by
  obtain ⟨ha, hb⟩ := isHot_eq_false.mp hh
  simp [decodeWrite, inWindow_of_inShadow hs, ha, hb, hg, hs]

/-- Decode of a read whose word is the encoder's. -/
theorem decodeTxn_of_read (hx : some (Txn.bus (busRead a)) = some x) (h : decodeRead c t a = .ok i) :
    decodeTxn c t x = .ok i := by
  cases hx
  exact decodeBus_busRead.trans h

/-- Decode of a write whose word is the encoder's. -/
theorem decodeTxn_of_write (hx : some (Txn.bus (busWrite a v)) = some x) (h : decodeWrite c t a v = .ok i) :
    decodeTxn c t x = .ok i := by
  cases hx
  exact decodeBus_busWrite.trans h

/-- A row taken decodes from the transaction that issues it, a second name as the operation it names. -/
theorem decodeTxn_encode (h : i.Taken c t) (hx : encode c i = some x) : decodeTxn c t x = .ok i.core := by
  cases i with
  | peekShadow a => exact decodeTxn_of_read hx (decodeRead_shadow h)
  | peekHot y =>
    obtain ⟨hw, hy, hs⟩ := h
    exact decodeTxn_of_read hx (decodeRead_hot hw hy hs)
  | peekRom a | peekRamRd a | peekRamWrport a =>
    obtain ⟨k, ht⟩ := h
    exact decodeTxn_of_read hx (decodeRead_target ht)
  | peekRamGap a => exact decodeTxn_of_read hx (decodeRead_target h)
  | peekOow a => exact decodeTxn_of_read hx (decodeRead_outside h)
  | pokeHota v => exact decodeTxn_of_write hx (decodeWrite_hotA h)
  | pokeHotb v => exact decodeTxn_of_write hx (decodeWrite_hotB h.1 h.2)
  | pokeRom a v | pokeRamWr a v | pokeRamRdport a v =>
    obtain ⟨k, ht⟩ := h
    exact decodeTxn_of_write hx (decodeWrite_target ht)
  | pokeRamGap a v => exact decodeTxn_of_write hx (decodeWrite_target h)
  | pokeShadow a v =>
    obtain ⟨hs, hh, hg⟩ := h
    exact decodeTxn_of_write hx (decodeWrite_shadow hs hh hg)
  | pokeOow a v => exact decodeTxn_of_write hx (decodeWrite_outside h)
  | selrom seg n => exact decodeTxn_of_write hx (decodeWrite_hotA h)
  | selram seg n => exact decodeTxn_of_write hx (decodeWrite_hotB h.1 h.2)
  | reset => cases hx; rfl
  | map | construct => cases hx

/-! Where decode has no row. -/

/-- An address without a row: in the window, no hotspot, behind no legal bank, and not the peripheral's. -/
def Rowless (c : Config) (t : SegTable) (a : Addr) : Prop :=
  inWindow c a = true ∧ isHot c a = false ∧ resolve c t a = none ∧ (inShadow c a = false ∨ inSegRegion c a = true)

theorem decodeRead_error (h : decodeRead c t a = .error e) : Rowless c t a := by
  unfold decodeRead at h
  split at h
  · cases h
  split at h
  · cases h
  split at h
  · cases h
  split at h
  · cases h
  rename_i hw hs ha hb
  split at h <;> cases h
  exact ⟨by simpa using hw, isHot_eq_false.mpr ⟨ha, hb⟩, ‹_›, .inl (by simpa using hs)⟩

theorem decodeWrite_error (h : decodeWrite c t a v = .error e) : Rowless c t a := by
  unfold decodeWrite at h
  split at h
  · cases h
  split at h
  · cases h
  split at h
  · cases h
  rename_i hw ha hb
  have hh : isHot c a = false := isHot_eq_false.mpr ⟨ha, hb⟩
  split at h
  · rename_i hg
    split at h <;> cases h
    exact ⟨by simpa using hw, hh, ‹_›, .inr hg⟩
  · rename_i hg
    split at h <;> cases h
    rename_i hs
    exact ⟨by simpa using hw, hh, by simp [resolve, hg], .inl (by simpa using hs)⟩

/-- With a valid configuration and legal entries every address has a row (00_scope R11 item 6, 10_state R24). -/
theorem not_rowless (hv : ValidConfig c) (ht : ∀ k, k < 4 → t.get k < bankCount c) : ¬Rowless c t a := by
  rintro ⟨hw, hh, hres, hs⟩
  by_cases hg : inSegRegion c a = true
  · have hsome := bankTarget_isSome (off := (segDecode c a).2) (ht _ (segDecode_lt hg).1)
    rw [← resolve_eq hg, hres] at hsome
    cases hsome
  · have hs := hs.resolve_right hg
    have hclassed := hv.classed a hw
    simp [hh, hs, hg] at hclassed

/-- Every transaction has a row (30_encoding R94). -/
theorem decodeTxn_total (hv : ValidConfig c) (ht : ∀ k, k < 4 → t.get k < bankCount c) (x : Txn) :
    ∃ i, decodeTxn c t x = .ok i := by
  cases hd : decodeTxn c t x with
  | ok i => exact ⟨i, rfl⟩
  | error e =>
    exfalso
    cases x with
    | reset => cases hd
    | bus w =>
      replace hd : decodeBus c t w = .error e := hd
      obtain ⟨-, hb⟩ | ⟨-, hb⟩ := decodeBus_cases (c := c) (t := t) w
      · exact not_rowless hv ht (decodeRead_error (hb.symm.trans hd))
      · exact not_rowless hv ht (decodeWrite_error (hb.symm.trans hd))

end Sys2Proof

namespace Sys2Proof.Machine

variable {s : State} {k : Out} {i : Instr} {r : Refusal} {m : String} {v : Byte} {b j : Nat} {seg : BitVec 2}
  {n : BitVec 6} {a : Addr}

/-! A row taken runs. -/

theorem whenLive_ne_notSelected (h : k ≠ .refused (.notSelected m)) : whenLive s k ≠ .refused (.notSelected m) := by
  intro hk
  obtain ⟨q, hq⟩ | ⟨-, hk⟩ := whenLive_refused hk
  · cases hq
  · exact h hk

theorem mapThen_ne_refused {f : State → Out} (hf : ∀ x, f x ≠ .refused r) : mapThen b j s f ≠ .refused r := by
  obtain ⟨-, -, e⟩ | ⟨-, e⟩ | ⟨-, -, e⟩ := mapThen_cases f b j s <;> rw [e]
  · exact hf _
  · nofun
  · nofun

theorem resetBody_ne_refused : resetBody s ≠ .refused r :=
  mapThen_ne_refused fun _ => mapThen_ne_refused fun _ => mapThen_ne_refused fun _ => mapThen_ne_refused fun _ => nofun

theorem execConstruct_ne_refused {image : List Byte} {p : Params} : execConstruct image p s ≠ .refused r := by
  unfold execConstruct
  split
  · nofun
  · split
    · nofun
    · exact resetBody_ne_refused

theorem writeHotA_ne_refused : writeHotA v s ≠ .refused r := mapThen_ne_refused fun _ => nofun

theorem writeHotB_ne_refused : writeHotB v s ≠ .refused r := mapThen_ne_refused fun _ => nofun

theorem engineHandles_eq_false (h : inSegRegion s.cfg a = false) : engineHandles s.cfg s.seg a = false := by
  simp [engineHandles, writeTarget, resolve, h]

/-- No operation is refused as not selected where its row is taken: `exec` asks for the condition decode asks for. -/
theorem exec_ne_notSelected (h : i.Taken s.cfg s.seg) : exec i s ≠ .refused (.notSelected m) := by
  cases i with
  | peekShadow a => exact whenLive_ne_notSelected (by rw [show inShadow s.cfg a = true from h]; nofun)
  | peekHot y =>
    obtain ⟨hw, -, hs⟩ := h
    exact whenLive_ne_notSelected (by rw [hw, hs]; nofun)
  | peekRom a | peekRamRd a | peekRamWrport a =>
    obtain ⟨k, ht⟩ := h
    exact whenLive_ne_notSelected (by rw [ht]; nofun)
  | peekRamGap a => exact whenLive_ne_notSelected (by rw [show readTarget s.cfg s.seg a = some .gap from h]; nofun)
  | peekOow a => exact whenLive_ne_notSelected (by rw [show inWindow s.cfg a = false from h]; nofun)
  | pokeHota v | selrom seg n =>
    exact whenLive_ne_notSelected (by rw [show hotASelected s.cfg = true from h]; exact writeHotA_ne_refused)
  | pokeHotb v | selram seg n =>
    have hsel : hotBSelected s.cfg = true := by simp [hotBSelected, h.1, h.2]
    exact whenLive_ne_notSelected (by rw [hsel]; exact writeHotB_ne_refused)
  | pokeRom a v | pokeRamWr a v | pokeRamRdport a v =>
    obtain ⟨k, ht⟩ := h
    exact whenLive_ne_notSelected (by rw [ht]; nofun)
  | pokeRamGap a v => exact whenLive_ne_notSelected (by rw [show writeTarget s.cfg s.seg a = some .gap from h]; nofun)
  | pokeShadow a v =>
    obtain ⟨hs, hh, hg⟩ := h
    exact whenLive_ne_notSelected (by rw [hs, hh, engineHandles_eq_false hg]; nofun)
  | pokeOow a v => exact whenLive_ne_notSelected (by rw [show inWindow s.cfg a = false from h]; nofun)
  | reset => exact whenLive_ne_notSelected resetBody_ne_refused
  | map b j => exact whenLive_ne_notSelected (mapThen_ne_refused fun _ => nofun)
  | construct image p => exact execConstruct_ne_refused

/-! The second names (30_encoding R96). -/

/-- A hotspot value is its segment field and its bank field (30_encoding R83). -/
theorem toNat_eq_fields (v : Byte) : v.toNat = hsvSeg v * 64 + hsvBank v := by
  simp only [hsvSeg, hsvBank, segFieldShift, bankFieldWidth]
  omega

/-- The value a pseudo-operation writes is the one its fields make (30_encoding R96). -/
theorem selValue_eq (h : v.toNat = seg.toNat * 64 + n.toNat) : selValue seg n = v := by
  obtain ⟨hseg, hbank⟩ := hsv_selValue seg n
  apply BitVec.eq_of_toNat_eq
  rw [toNat_eq_fields, hseg, hbank, h]

/-- `SELROM` at an unmarked machine with Hotspot A in the window. -/
theorem execSelrom_eq (hl : Live s) (hs : hotASelected s.cfg = true) :
    execSelrom seg n s = writeHotA (selValue seg n) s := by
  rw [execSelrom, whenLive_of_live hl, if_pos hs]

/-- `SELRAM` at an unmarked machine with Hotspot B in the window and not also Hotspot A. -/
theorem execSelram_eq (hl : Live s) (hs : hotBSelected s.cfg = true) :
    execSelram seg n s = writeHotB (selValue seg n) s := by
  rw [execSelram, whenLive_of_live hl, if_pos hs]

theorem writeHotA_selValue (hn : n.toNat < bankCount s.cfg) :
    writeHotA (selValue seg n) s = .next (answer (.handled true) (setSeg seg.toNat n.toNat s)) := by
  obtain ⟨hseg, hbank⟩ := hsv_selValue seg n
  rw [writeHotA, hseg, hbank, mapThen_ok seg.isLt hn, handledResult]

theorem writeHotB_selValue (hn : n.toNat < s.cfg.ramBanks) :
    writeHotB (selValue seg n) s = .next (answer (.handled true) (setSeg seg.toNat (n.toNat + romBanks s.cfg) s)) := by
  obtain ⟨hseg, hbank⟩ := hsv_selValue seg n
  have hb : n.toNat + romBanks s.cfg < bankCount s.cfg := by unfold bankCount; omega
  rw [writeHotB, hseg, hbank, mapThen_ok seg.isLt hb, handledResult]

/-! The default address map in bits (30_encoding R91). -/

theorem extractLsb'_eq_iff {k l : Nat} {q : BitVec l} :
    a.extractLsb' k l = q ↔ a.toNat / 2 ^ k % 2 ^ l = q.toNat := by
  rw [← BitVec.toNat_inj, BitVec.extractLsb'_toNat, Nat.shiftRight_eq_div_pow]

/-- Segment number and offset are bit fields of the address (30_encoding R86). -/
theorem segDecode_default (h : inSegRegion defaultConfig a = true) :
    segDecode defaultConfig a = ((a.extractLsb' 10 2).toNat, (a.extractLsb' 0 10).toNat) := by
  rw [inSegRegion_default] at h
  simp only [BitVec.extractLsb'_toNat, Nat.shiftRight_eq_div_pow]
  refine segDecode_eq (c := defaultConfig) (Nat.mod_lt _ (by decide)) ?_
  change a.toNat = 0x1000 + _ * 1024 + _
  omega

/-- Bit 9 of an offset is the port bit, and the bits below it are the offset inside the port (30_encoding R91). -/
theorem portOf_default (p : Nat) :
    portOf defaultConfig (p % 1024) = if p.testBit 9 then .write (p % 512) else .read (p % 512) := by
  have hk : p % 512 < defaultConfig.ramBankSize := Nat.mod_lt _ (by decide)
  rw [Nat.testBit_eq_decide_div_mod_eq]
  by_cases hbit : p / 2 ^ 9 % 2 = 1
  · have hoff : p % 1024 = defaultConfig.ramWrOff + p % 512 := by change _ = 512 + _; omega
    rw [hoff, portOf_wrOff hk (.inl (by decide)), if_pos (decide_eq_true hbit)]
  · have hoff : p % 1024 = defaultConfig.ramRdOff + p % 512 := by change _ = 0 + _; omega
    rw [hoff, portOf_rdOff hk, if_neg (by simpa using hbit)]

theorem inShadow_default_bits :
    inShadow defaultConfig a = true ↔ a.extractLsb' 6 10 = 0#10 ∧ a.extractLsb' 1 5 ≠ 31#5 := by
  have ha := a.isLt
  rw [inShadow_default, ne_eq, extractLsb'_eq_iff, extractLsb'_eq_iff]
  change _ ↔ a.toNat / 2 ^ 6 % 2 ^ 10 = 0 ∧ ¬a.toNat / 2 ^ 1 % 2 ^ 5 = 31
  omega

theorem isHot_default_bits : isHot defaultConfig a = true ↔ a = 0x003E#16 ∨ a = 0x003F#16 := by
  rw [isHot_default, ← BitVec.toNat_inj, ← BitVec.toNat_inj]
  exact or_comm

theorem inSegRegion_default_bits : inSegRegion defaultConfig a = true ↔ a.extractLsb' 12 4 = 1#4 := by
  have ha := a.isLt
  rw [inSegRegion_default, extractLsb'_eq_iff]
  change _ ↔ a.toNat / 2 ^ 12 % 2 ^ 4 = 1
  omega

/-- The window of the default configuration is its three classes (20_memory R57). -/
theorem inWindow_default_iff : inWindow defaultConfig a = true ↔
    inShadow defaultConfig a = true ∨ isHot defaultConfig a = true ∨ inSegRegion defaultConfig a = true := by
  rw [inWindow_default, inShadow_default, isHot_default, inSegRegion_default]
  omega

end Sys2Proof.Machine

namespace Sys2Proof.Proofs

open Machine

/-- Settles O34: a well-formed selected operation is a row taken, and a row taken decodes from its word. -/
theorem decodeOfEncodeIsTheOperation : Obligations.DecodeOfEncodeIsTheOperation :=
  fun _ _ _ _ hwf hsel hx => decodeTxn_encode (taken_iff.mpr ⟨hwf, hsel⟩) hx

/-- Settles O4: decode answers a row taken, and `exec` runs a row taken. -/
theorem stepNeverPicksAWrongRow : Obligations.StepNeverPicksAWrongRow := by
  intro s m
  apply whenLive_ne_notSelected
  split
  · nofun
  · rename_i rest _
    split
    · rename_i i hd
      exact exec_ne_notSelected (s := { s with pending := rest }) (decodeTxn_taken hd)
    · nofun

/-- Settles O26: the value is `selValue`, so the pseudo-operation is the same hotspot write, which maps its fields. -/
theorem selectPseudoOpsExpand : Obligations.SelectPseudoOpsExpand := by
  intro s seg n v hl hA hB hne hv
  have hselB : hotBSelected s.cfg = true := by simp [hotBSelected, hB, hne]
  rw [← selValue_eq hv]
  refine ⟨(execSelrom_eq hl hA).trans (execPokeHota_eq hl hA).symm,
    (execSelram_eq hl hselB).trans (execPokeHotb_eq hl hselB).symm, fun hn => ?_, fun hn => ?_⟩
  · exact (execSelrom_eq hl hA).trans (writeHotA_selValue hn)
  · exact (execSelram_eq hl hselB).trans (writeHotB_selValue hn)

/-- Settles O35: the operation is issued by the word of its fields, which is the word but for a read's data field. -/
theorem encodeOfDecodeIsTheWord : Obligations.EncodeOfDecodeIsTheWord := by
  intro c t w i h
  obtain ⟨-, hword⟩ := decodeBus_sound h
  exact hword

/-- Settles O36: the invariant gives every transaction a row, and decode answers only rows taken. -/
theorem everyTransactionDecodes : Obligations.EveryTransactionDecodes := by
  intro s x hs
  obtain ⟨i, hd⟩ := decodeTxn_total hs.config hs.segLegal x
  exact ⟨i, hd, taken_iff.mp (decodeTxn_taken hd)⟩

/-- Settles O37: each class by its range of addresses, each field by its quotient and remainder. -/
theorem defaultMapInBits : Obligations.DefaultMapInBits := by
  intro a
  refine ⟨inShadow_default_bits, isHot_default_bits, inSegRegion_default_bits, inWindow_default_iff, fun h => ?_⟩
  have hseg := segDecode_default h
  refine ⟨hseg, ?_⟩
  rw [hseg, BitVec.extractLsb'_toNat, BitVec.extractLsb'_toNat]
  exact portOf_default a.toNat

/-- Settles O33: ten words, each evaluated. -/
theorem vectorWordsDecode : Obligations.VectorWordsDecode :=
  ⟨rfl, rfl, rfl, rfl, rfl, rfl, rfl, rfl, rfl, rfl⟩

end Sys2Proof.Proofs
end

section
/-! PROOFS. The engine (40_engine): the target behind each bank and offset, what each row answers at an unmarked machine that
selects it, and that every row taken but a construction answers. From these the statements about `MAP`, the engine's rows and
progress. -/

namespace Sys2Proof.Machine

variable {c : Config} {s : State} {f : State → Out} {i : Instr} {a : Addr} {v : Byte} {b j k off : Nat}

/-! The target behind a legal bank (20_memory R61, R62). -/

theorem portOf_eq_gap (hrd : ¬(c.ramRdOff ≤ off ∧ off < c.ramRdOff + c.ramBankSize))
    (hwr : ¬(c.ramWrOff ≤ off ∧ off < c.ramWrOff + c.ramBankSize)) : portOf c off = .gap := by
  rw [portOf, if_neg hrd, if_neg hwr]

theorem bankTarget_readPort (hb : isRam c b = true) (hk : k < c.ramBankSize) :
    bankTarget c b (c.ramRdOff + k) = some (.readPort ((b - romBanks c) * c.ramBankSize + k)) := by
  rw [bankTarget_ram hb, portOf_rdOff hk]

theorem bankTarget_writePort (hv : ValidConfig c) (hb : isRam c b = true) (hk : k < c.ramBankSize) :
    bankTarget c b (c.ramWrOff + k) = some (.writePort ((b - romBanks c) * c.ramBankSize + k)) := by
  rw [bankTarget_ram hb, portOf_wrOff hk hv.portsDisjoint]

theorem bankTarget_gap (hb : isRam c b = true) (hrd : ¬(c.ramRdOff ≤ off ∧ off < c.ramRdOff + c.ramBankSize))
    (hwr : ¬(c.ramWrOff ≤ off ∧ off < c.ramWrOff + c.ramBankSize)) : bankTarget c b off = some .gap := by
  rw [bankTarget_ram hb, portOf_eq_gap hrd hwr]

/-- Under the invariant an entry that is no ROM index is a RAM index (10_state R24, R26). -/
theorem isRam_of_inv (hs : StateInv s) (hj : j < 4) (hb : romBanks s.cfg ≤ s.seg.get j) :
    isRam s.cfg (s.seg.get j) = true :=
  isRam_iff.mpr ⟨hb, hs.segLegal j hj⟩

/-! What a row answers at an unmarked machine that selects it. -/

theorem execPeekShadow_eq (hl : Live s) (h : inShadow s.cfg a = true) :
    execPeekShadow a s = .next (periphRead a s) := by
  rw [execPeekShadow, whenLive_of_live hl, if_pos h]

theorem execPeekHot_eq {y : Hotspot} (hl : Live s) (hw : inWindow s.cfg (hotAddr s.cfg y) = true)
    (hs : inShadow s.cfg (hotAddr s.cfg y) = false) :
    execPeekHot y s = .next (refuse (.hotspotRead (hotAddr s.cfg y)) s) := by
  rw [execPeekHot, whenLive_of_live hl, hw, hs]
  rfl

theorem execPeekRom_eq (hl : Live s) (h : readTarget s.cfg s.seg a = some (.rom k)) :
    execPeekRom a s = .next (answer (.byte (romRead s.cfg k)) s) := by
  rw [execPeekRom, whenLive_of_live hl, h]

theorem execPeekRamRd_eq (hl : Live s) (h : readTarget s.cfg s.seg a = some (.readPort k)) :
    execPeekRamRd a s = .next (answer (.byte (ramRead s k)) s) := by
  rw [execPeekRamRd, whenLive_of_live hl, h]

theorem execPeekRamWrport_eq (hl : Live s) (h : readTarget s.cfg s.seg a = some (.writePort k)) :
    execPeekRamWrport a s = .next (disturb k (drawn (answer (.byte (nextByte s)) s))) := by
  rw [execPeekRamWrport, whenLive_of_live hl, h]

theorem execPeekRamGap_eq (hl : Live s) (h : readTarget s.cfg s.seg a = some .gap) :
    execPeekRamGap a s = .next (drawn (answer (.byte (nextByte s)) s)) := by
  rw [execPeekRamGap, whenLive_of_live hl, h]

theorem execPeekOow_eq (hl : Live s) (h : inWindow s.cfg a = false) :
    execPeekOow a s = .next (refuse (.outOfWindow a .read) s) := by
  rw [execPeekOow, whenLive_of_live hl, h]
  rfl

theorem execPokeRom_eq (hl : Live s) (h : writeTarget s.cfg s.seg a = some (.rom k)) :
    execPokeRom a v s = .next (unhandled a v s) := by
  rw [execPokeRom, whenLive_of_live hl, h]

theorem execPokeRamWr_eq (hl : Live s) (h : writeTarget s.cfg s.seg a = some (.writePort k)) :
    execPokeRamWr a v s = .next (answer (.handled true) (ramWrite k v s)) := by
  rw [execPokeRamWr, whenLive_of_live hl, h]
  rfl

theorem execPokeRamRdport_eq (hl : Live s) (h : writeTarget s.cfg s.seg a = some (.readPort k)) :
    execPokeRamRdport a v s = .next (unhandled a v s) := by
  rw [execPokeRamRdport, whenLive_of_live hl, h]

theorem execPokeRamGap_eq (hl : Live s) (h : writeTarget s.cfg s.seg a = some .gap) :
    execPokeRamGap a v s = .next (unhandled a v s) := by
  rw [execPokeRamGap, whenLive_of_live hl, h]

theorem execPokeShadow_eq (hl : Live s) (hs : inShadow s.cfg a = true) (hh : isHot s.cfg a = false)
    (he : engineHandles s.cfg s.seg a = false) : execPokeShadow a v s = .next (periphWrite a v s) := by
  rw [execPokeShadow, whenLive_of_live hl, hs, hh, he]
  rfl

theorem execPokeOow_eq (hl : Live s) (h : inWindow s.cfg a = false) :
    execPokeOow a v s = .next (refuse (.outOfWindow a .write) s) := by
  rw [execPokeOow, whenLive_of_live hl, h]
  rfl

theorem execReset_eq (hl : Live s) : execReset s = resetBody s := whenLive_of_live hl

theorem execMap_eq (hl : Live s) : execMap b j s = mapThen b j s fun s => .next (done s) := whenLive_of_live hl

/-! What the shared operations leave in the store, and what they leave unchanged. -/

/-- A cell just written holds the byte written (00_scope R14). -/
theorem ramRead_ramWrite_same (hwf : Memory.wf (Config.freeRam s.ramInit) s.ram = true) :
    ramRead (ramWrite k v s) k = v :=
  (ramRead_ramWrite hwf).trans (if_pos rfl)

/-- Outside the shadow range a write nothing takes answers false (41_scheme R156). -/
theorem unhandled_outside (h : inShadow s.cfg a = false) : unhandled a v s = answer (.handled false) s := by
  obtain ⟨hs, -⟩ | ⟨-, e⟩ := unhandled_cases a v s
  · exact absurd (hs.symm.trans h) (by decide)
  · exact e

/-- A write-port read touches the RAM and the draw counter alone (40_engine R116). -/
theorem disturb_frame : disturb k s = { s with ram := (disturb k s).ram, draws := (disturb k s).draws } := by
  obtain e | ⟨w, e⟩ := disturb_cases k s <;> rw [e] <;> rfl

/-- A write-port read keeps every cell but the one the port names (40_engine R116, 10_state R31). -/
theorem ramRead_disturb_of_ne (hwf : Memory.wf (Config.freeRam s.ramInit) s.ram = true) (hj : j ≠ k) :
    ramRead (disturb k s) j = ramRead s j := by
  obtain e | ⟨w, e⟩ := disturb_cases k s <;> rw [e]
  · rfl
  · exact (ramRead_ramWrite (s := drawn s) hwf).trans (if_neg hj)

/-! A row taken answers a next state. -/

/-- The condition decode takes a Hotspot B write under is the one `exec` asks for (30_encoding R88). -/
theorem hotBSelected_of_taken (h : inWindow c c.hotB = true ∧ c.hotA ≠ c.hotB) : hotBSelected c = true := by
  simp [hotBSelected, h.1, h.2]

theorem mapThen_completes (hf : ∀ x, ∃ t, f x = .next t) : ∃ t, mapThen b j s f = .next t := by
  obtain ⟨-, -, e⟩ | ⟨-, e⟩ | ⟨-, -, e⟩ := mapThen_cases f b j s <;> rw [e]
  · exact hf _
  · exact ⟨_, rfl⟩
  · exact ⟨_, rfl⟩

theorem writeHotA_completes (v : Byte) (s : State) : ∃ t, writeHotA v s = .next t :=
  mapThen_completes fun _ => ⟨_, rfl⟩

theorem writeHotB_completes (v : Byte) (s : State) : ∃ t, writeHotB v s = .next t :=
  mapThen_completes fun _ => ⟨_, rfl⟩

/-- A reset answers at every configuration; one without a ROM bank faults, which is a next state (assumption log 1). -/
theorem resetBody_completes (s : State) : ∃ t, resetBody s = .next t :=
  mapThen_completes fun _ => mapThen_completes fun _ => mapThen_completes fun _ => mapThen_completes fun _ => ⟨_, rfl⟩

/-- At an unmarked machine every transaction whose row is taken answers a next state. -/
theorem exec_completes (hl : Live s) (hi : i.isTransaction = true) (h : i.Taken s.cfg s.seg) :
    ∃ t, exec i s = .next t := by
  cases i with
  | peekShadow a => exact ⟨_, execPeekShadow_eq hl h⟩
  | peekHot y =>
    obtain ⟨hw, -, hs⟩ := h
    exact ⟨_, execPeekHot_eq hl hw hs⟩
  | peekRom a =>
    obtain ⟨k, ht⟩ := h
    exact ⟨_, execPeekRom_eq hl ht⟩
  | peekRamRd a =>
    obtain ⟨k, ht⟩ := h
    exact ⟨_, execPeekRamRd_eq hl ht⟩
  | peekRamWrport a =>
    obtain ⟨k, ht⟩ := h
    exact ⟨_, execPeekRamWrport_eq hl ht⟩
  | peekRamGap a => exact ⟨_, execPeekRamGap_eq hl h⟩
  | peekOow a => exact ⟨_, execPeekOow_eq hl h⟩
  | pokeHota v =>
    obtain ⟨t, hw⟩ := writeHotA_completes v s
    exact ⟨t, (execPokeHota_eq hl h).trans hw⟩
  | pokeHotb v =>
    obtain ⟨t, hw⟩ := writeHotB_completes v s
    exact ⟨t, (execPokeHotb_eq hl (hotBSelected_of_taken h)).trans hw⟩
  | pokeRom a v =>
    obtain ⟨k, ht⟩ := h
    exact ⟨_, execPokeRom_eq hl ht⟩
  | pokeRamWr a v =>
    obtain ⟨k, ht⟩ := h
    exact ⟨_, execPokeRamWr_eq hl ht⟩
  | pokeRamRdport a v =>
    obtain ⟨k, ht⟩ := h
    exact ⟨_, execPokeRamRdport_eq hl ht⟩
  | pokeRamGap a v => exact ⟨_, execPokeRamGap_eq hl h⟩
  | pokeShadow a v =>
    obtain ⟨hs, hh, hg⟩ := h
    exact ⟨_, execPokeShadow_eq hl hs hh (engineHandles_eq_false hg)⟩
  | pokeOow a v => exact ⟨_, execPokeOow_eq (v := v) hl h⟩
  | selrom seg n =>
    obtain ⟨t, hw⟩ := writeHotA_completes (selValue seg n) s
    exact ⟨t, (execSelrom_eq hl h).trans hw⟩
  | selram seg n =>
    obtain ⟨t, hw⟩ := writeHotB_completes (selValue seg n) s
    exact ⟨t, (execSelram_eq hl (hotBSelected_of_taken h)).trans hw⟩
  | reset =>
    obtain ⟨t, hr⟩ := resetBody_completes s
    exact ⟨t, (execReset_eq hl).trans hr⟩
  | map | construct => cases hi

end Sys2Proof.Machine

namespace Sys2Proof.Proofs

open Machine

/-- Settles O3: with nothing pending by the step's own rule, else the transaction has a row and a row taken answers. -/
theorem unmarkedMachineAlwaysSteps : Obligations.UnmarkedMachineAlwaysSteps := by
  intro s hs hl
  cases hp : s.pending with
  | nil => exact ⟨s, step_of_pending_nil hl hp⟩
  | cons x rest =>
    obtain ⟨i, hd⟩ := decodeTxn_total hs.config hs.segLegal x
    rw [step_of_decode hl hp hd]
    exact exec_completes (s := { s with pending := rest }) hl (decodeTxn_isTransaction hd) (decodeTxn_taken hd)

/-- Settles O16, along the two checks of `map` in their order. -/
theorem mapChecksThenWritesOneEntry : Obligations.MapChecksThenWritesOneEntry := by
  intro s b i hl
  refine (execMap_eq hl).trans ?_
  split_ifs with hi hb
  · exact mapThen_segment hi
  · exact mapThen_bank (not_le.mp hi) hb
  · exact mapThen_ok (not_le.mp hi) (not_le.mp hb)

/-- Settles O17: a ROM bank resolves to its byte at every offset. -/
theorem peekRomReturnsTheImageByte : Obligations.PeekRomReturnsTheImageByte := by
  intro s a i off hl hp hat hb
  exact execPeekRom_eq hl ((readTarget_at hp hat).trans (bankTarget_rom (isRom_iff.mpr hb)))

/-- Settles O18: the read port of a RAM bank resolves to its cell. -/
theorem peekReadPortReturnsTheCell : Obligations.PeekReadPortReturnsTheCell := by
  intro s a i k hl hp hat hk hlo hhi
  exact execPeekRamRd_eq hl ((readTarget_at hp hat).trans (bankTarget_readPort (isRam_iff.mpr ⟨hlo, hhi⟩) hk))

/-- Settles O19: the write port resolves to its cell, the one the read may disturb. -/
theorem peekWritePortDisturbsOneCell : Obligations.PeekWritePortDisturbsOneCell := by
  intro s a i k hs hl hp hat hk hb
  have htarget := (readTarget_at hp hat).trans (bankTarget_writePort hs.config (isRam_of_inv hs hat.1 hb) hk)
  exact ⟨_, _, execPeekRamWrport_eq hl htarget, disturb_frame, fun j hj => ramRead_disturb_of_ne hs.ramWf hj⟩

/-- Settles O20: an offset outside both ports resolves to the remainder. -/
theorem peekGapReturnsSomeByte : Obligations.PeekGapReturnsSomeByte := by
  intro s a i off hl hp hat hrd hwr hlo hhi
  have htarget := (readTarget_at hp hat).trans (bankTarget_gap (isRam_iff.mpr ⟨hlo, hhi⟩) hrd hwr)
  exact ⟨_, _, execPeekRamGap_eq hl htarget⟩

/-- Settles O27: the write port resolves to its cell, the one the write sets. -/
theorem pokeWritePortStoresTheByte : Obligations.PokeWritePortStoresTheByte := by
  intro s a v i k hs hl hp hat hk hb
  have htarget := (writeTarget_at hp hat).trans (bankTarget_writePort hs.config (isRam_of_inv hs hat.1 hb) hk)
  exact ⟨_, execPokeRamWr_eq hl htarget, rfl, fun j => ramRead_ramWrite hs.ramWf⟩

/-- Settles O28: the three targets no write changes, each ending in the unhandled write outside the shadow range. -/
theorem unwritableWritesAreIgnored : Obligations.UnwritableWritesAreIgnored := by
  intro s a v i off hl hp hout hat
  have htarget := writeTarget_at (t := s.seg) hp hat
  have hend : Host.Outcome.next (unhandled a v s) = (.next (answer (.handled false) s) : Out) :=
    congrArg _ (unhandled_outside hout)
  refine ⟨fun hb => ?_, fun hlo hhi hrd hlt => ?_, fun hlo hhi hrd hwr => ?_⟩
  · exact (execPokeRom_eq hl (htarget.trans (bankTarget_rom (isRom_iff.mpr hb)))).trans hend
  · obtain ⟨k, rfl⟩ := Nat.exists_eq_add_of_le hrd
    have hport := bankTarget_readPort (isRam_iff.mpr ⟨hlo, hhi⟩) (Nat.lt_of_add_lt_add_left hlt)
    exact (execPokeRamRdport_eq hl (htarget.trans hport)).trans hend
  · exact (execPokeRamGap_eq hl (htarget.trans (bankTarget_gap (isRam_iff.mpr ⟨hlo, hhi⟩) hrd hwr))).trans hend

/-- Settles O47: the write changes neither configuration nor table, and both ports name one cell. -/
theorem ramRoundTripThroughThePorts : Obligations.RamRoundTripThroughThePorts := by
  intro s a a' v i j k hs hl hw hat hr hat' hk hb hji
  have hram := isRam_of_inv hs hat.1 hb
  have hwrite := (writeTarget_at hw hat).trans (bankTarget_writePort hs.config hram hk)
  have hread := (readTarget_at (t := s.seg) hr hat').trans (hji ▸ bankTarget_readPort hram hk)
  refine ⟨_, _, execPokeRamWr_eq hl hwrite, execPeekRamRd_eq (s := answer _ (ramWrite _ v s)) hl hread, ?_⟩
  rw [answer_reply, hji]
  exact congrArg (some ∘ Reply.byte) (ramRead_ramWrite_same hs.ramWf)

end Sys2Proof.Proofs
end

section
/-! PROOFS. The scheme (41_scheme): the row of a hotspot write and what it answers, the rows of a pending read and a pending
write in the order of their tests, where a write nothing takes ends, and from these the statements about hotspots, the
shadow range, dispatch and the result of a write. -/

namespace Sys2Proof

open Machine

variable {c : Config} {t : SegTable} {a : Addr} {v : Byte} {h : Hotspot} {k off : Nat}

/-! Address classes. -/

theorem inShadow_of_lt (hw : inWindow c a = true) (hlt : a.toNat < c.shadowLimit.toNat) : inShadow c a = true := by
  simp [inShadow, hw, hlt]

theorem inShadow_eq_false_of_not_lt (hlt : ¬a.toNat < c.shadowLimit.toNat) : inShadow c a = false := by
  simp [inShadow, hlt]

/-- A hotspot lies above the shadow range (00_scope R11 item 5). -/
theorem isHot_eq_false_of_inShadow (hv : ValidConfig c) (hs : inShadow c a = true) : isHot c a = false := by
  simp only [inShadow, Bool.and_eq_true, decide_eq_true_eq] at hs
  obtain ⟨-, hlt⟩ := hs
  obtain ⟨hA, hB⟩ := hv.shadowBelow
  refine isHot_eq_false.mpr ⟨?_, ?_⟩ <;> rintro rfl <;> omega

/-- A hotspot address is that of one hotspot, `HOT_A` where both have it (30_encoding R87, R88). -/
theorem exists_hotAddr (ha : a = c.hotA ∨ a = c.hotB) : ∃ h, a = hotAddr c h ∧ (h = .a ∨ c.hotA ≠ c.hotB) := by
  by_cases hA : a = c.hotA
  · exact ⟨.a, hA, .inl rfl⟩
  · have hB := ha.resolve_left hA
    exact ⟨.b, hB, .inr fun e => hA (hB.trans e.symm)⟩

theorem hotAddr_inWindow (hv : ValidConfig c) : inWindow c (hotAddr c h) = true := by
  cases h with
  | a => exact hv.hotAInWindow
  | b => exact hv.hotBInWindow

/-! Rows of a RAM-mapped segment. -/

/-- Behind a RAM bank the port alone tells the row of a read (30_encoding R89). -/
theorem decodeRead_ram (hp : ReadPasses c a) (hat : AtSegment c a k off) (hb : isRam c (t.get k) = true) :
    decodeRead c t a = .ok
      (match portOf c off with
        | .read _ => .peekRamRd a
        | .write _ => .peekRamWrport a
        | .gap => .peekRamGap a) := by
  rw [decodeRead_at hp hat, bankTarget_ram hb]
  cases portOf c off <;> rfl

/-- Behind a RAM bank the port alone tells the row of a write (30_encoding R89). -/
theorem decodeWrite_ram (hp : WritePasses c a) (hat : AtSegment c a k off) (hb : isRam c (t.get k) = true) :
    decodeWrite c t a v = .ok
      (match portOf c off with
        | .read _ => .pokeRamRdport a v
        | .write _ => .pokeRamWr a v
        | .gap => .pokeRamGap a v) := by
  rw [decodeWrite_at hp hat, bankTarget_ram hb]
  cases portOf c off <;> rfl

/-! Hotspot writes. -/

/-- The row of a hotspot write (41_scheme R153, R154). -/
def Hotspot.pokeRow (v : Byte) : Hotspot → Instr
  | .a => .pokeHota v
  | .b => .pokeHotb v

theorem decodeWrite_hot (hw : inWindow c (hotAddr c h) = true) (hne : h = .a ∨ c.hotA ≠ c.hotB) :
    decodeWrite c t (hotAddr c h) v = .ok (h.pokeRow v) := by
  cases h with
  | a => exact decodeWrite_hotA hw
  | b => exact decodeWrite_hotB hw (hne.resolve_left (by decide))

end Sys2Proof

namespace Sys2Proof.Machine

variable {s : State} {a : Addr} {v : Byte} {h : Hotspot} {i : Instr} {g : Target} {b k : Nat} {rest : List Txn}

/-- A hotspot write maps its bank into its segment and answers true, or raises F1 (41_scheme R153, R154). -/
def hotspotOutcome (b : Nat) (v : Byte) (s : State) : State :=
  if b < bankCount s.cfg then answer (.handled true) (setSeg (v >>> 6).toNat b s)
  else raise (.bankOutOfRange b (v >>> 6).toNat) s

/-- The segment field names a segment that exists, so only the bank can be out of range (60_exceptions R181). -/
theorem mapThen_hsvSeg : mapThen b (hsvSeg v) s (fun s => .next (answer (.handled true) s)) =
    .next (hotspotOutcome b v s) := by
  unfold hotspotOutcome
  rw [← hsvSeg_eq]
  split_ifs with hb
  · exact mapThen_ok (hsvSeg_lt v) hb
  · exact mapThen_bank (hsvSeg_lt v) (not_lt.mp hb)

/-- A hotspot write at an unmarked machine that selects it (41_scheme R153, R154). -/
theorem exec_hotspot (hl : Live s) (hw : inWindow s.cfg (hotAddr s.cfg h) = true)
    (hne : h = .a ∨ s.cfg.hotA ≠ s.cfg.hotB) :
    exec (h.pokeRow v) s = .next (hotspotOutcome (hotspotBank s.cfg h v) v s) := by
  cases h with
  | a =>
    rw [hotspotBank, ← hsvBank_eq]
    exact (execPokeHota_eq hl hw).trans mapThen_hsvSeg
  | b =>
    rw [hotspotBank, ← hsvBank_eq]
    exact (execPokeHotb_eq hl (hotBSelected_of_taken ⟨hw, hne.resolve_left (by decide)⟩)).trans mapThen_hsvSeg

/-! A step with a pending read or write. -/

theorem step_of_decodeRead (hl : Live s) (hp : s.pending = .bus (busRead a) :: rest)
    (hd : decodeRead s.cfg s.seg a = .ok i) : step s = exec i { s with pending := rest } :=
  step_of_decode hl hp (decodeTxn_of_read rfl hd)

theorem step_of_decodeWrite (hl : Live s) (hp : s.pending = .bus (busWrite a v) :: rest)
    (hd : decodeWrite s.cfg s.seg a v = .ok i) : step s = exec i { s with pending := rest } :=
  step_of_decode hl hp (decodeTxn_of_write rfl hd)

/-- A pending hotspot write of a legal bank maps it and is done (41_scheme R143). -/
theorem step_hotspot (hv : ValidConfig s.cfg) (hl : Live s)
    (hp : s.pending = .bus (busWrite (hotAddr s.cfg h) v) :: rest) (hb : hotspotBank s.cfg h v < bankCount s.cfg) :
    step s = .next (answer (.handled true)
      (setSeg (v >>> 6).toNat (hotspotBank s.cfg h v) { s with pending := rest })) := by
  have hw : inWindow s.cfg (hotAddr s.cfg h) = true := hotAddr_inWindow hv
  have hne : h = .a ∨ s.cfg.hotA ≠ s.cfg.hotB := .inr hv.hotsDiffer
  calc step s
    _ = exec (h.pokeRow v) { s with pending := rest } := step_of_decodeWrite hl hp (decodeWrite_hot hw hne)
    _ = .next (hotspotOutcome (hotspotBank s.cfg h v) v { s with pending := rest }) :=
      exec_hotspot (s := { s with pending := rest }) hl hw hne
    _ = _ := congrArg _ (if_pos hb)

/-- A pending read of a ROM byte returns it (40_engine R114). -/
theorem step_readRom (hl : Live s) (hp : s.pending = .bus (busRead a) :: rest)
    (ht : readTarget s.cfg s.seg a = some (.rom k)) :
    step s = .next (answer (.byte (romRead s.cfg k)) { s with pending := rest }) :=
  (step_of_decodeRead hl hp (decodeRead_target ht)).trans (execPeekRom_eq (s := { s with pending := rest }) hl ht)

/-- A pending read through the read port returns the cell (40_engine R115). -/
theorem step_readPort (hl : Live s) (hp : s.pending = .bus (busRead a) :: rest)
    (ht : readTarget s.cfg s.seg a = some (.readPort k)) :
    step s = .next (answer (.byte (ramRead s k)) { s with pending := rest }) :=
  (step_of_decodeRead hl hp (decodeRead_target ht)).trans (execPeekRamRd_eq (s := { s with pending := rest }) hl ht)

/-! Writes the engine does not take. -/

/-- In the shadow range a write nothing takes goes to the peripheral (41_scheme R156). -/
theorem unhandled_inside (hs : inShadow s.cfg a = true) : unhandled a v s = periphWrite a v s := by
  obtain ⟨-, e⟩ | ⟨hs', -⟩ := unhandled_cases a v s
  · exact e
  · exact absurd (hs.symm.trans hs') (by decide)

/-- Every target but a write port leaves the write unhandled (40_engine R122 to R124). -/
theorem exec_pokeRow_of_ne_writePort (hl : Live s) (ht : writeTarget s.cfg s.seg a = some g)
    (hg : ∀ k, g ≠ .writePort k) : exec (g.pokeRow a v) s = .next (unhandled a v s) := by
  cases g with
  | rom k => exact execPokeRom_eq hl ht
  | readPort k => exact execPokeRamRdport_eq hl ht
  | writePort k => exact absurd rfl (hg k)
  | gap => exact execPokeRamGap_eq hl ht

/-- A machine that has just refused is marked (60_exceptions R184). -/
theorem not_live_refuse {r : RefusalRec} : ¬Live (refuse r s) := fun hl => Option.some_ne_none r hl.2

/-- No row of `peek` calls `map` (10_state R25). -/
theorem callsMap_of_isPeek (hi : i.isPeek = true) : i.callsMap = false := by
  cases i with
  | pokeHota | pokeHotb | selrom | selram | reset | map | construct => cases hi
  | _ => rfl

end Sys2Proof.Machine

namespace Sys2Proof.Proofs

open Machine

/-- Settles O48: the step maps the bank, so the next read of the segment resolves behind it. -/
theorem hotspotWriteIsEffectiveNext : Obligations.HotspotWriteIsEffectiveNext := by
  intro s h v q hs hl hb hp
  refine ⟨_, step_hotspot hs.config hl hp hb, rfl, ?_⟩
  rintro a off rest rfl hread hat
  have htarget := readTarget_at (t := s.seg.set (v >>> 6).toNat (hotspotBank s.cfg h v)) hread hat
  rw [SegTable.get_set_self hat.1] at htarget
  constructor
  · intro hrom
    exact ⟨_, step_readRom hl rfl (htarget.trans (bankTarget_rom (isRom_iff.mpr hrom))), rfl, rfl⟩
  · rintro hram k rfl hk
    exact ⟨_, step_readPort hl rfl (htarget.trans (bankTarget_readPort (isRam_iff.mpr ⟨hram, hb⟩) hk)), rfl, rfl⟩

/-- Settles O24: the outcome of a hotspot write, for Hotspot A. -/
theorem pokeHotspotASelectsTheBank : Obligations.PokeHotspotASelectsTheBank := by
  intro s v hl hw
  exact exec_hotspot (h := .a) hl hw (.inl rfl)

/-- Settles O25: the bank index is legal exactly where the bank field is below `RAM_BANKS`. -/
theorem pokeHotspotBSelectsTheRamBank : Obligations.PokeHotspotBSelectsTheRamBank := by
  intro s v hl hw hne
  have hlegal : (v &&& 0x3F#8).toNat < s.cfg.ramBanks ↔ hotspotBank s.cfg .b v < bankCount s.cfg := by
    rw [hotspotBank, bankCount]
    omega
  simp only [hlegal]
  exact exec_hotspot (h := .b) hl hw (.inr hne)

/-- Settles O29: the three targets no write changes, each ending at the peripheral. -/
theorem unhandledShadowWritesAreForwarded : Obligations.UnhandledShadowWritesAreForwarded := by
  intro s a v i off hl hp hshadow hat
  have forwards : ∀ g, bankTarget s.cfg (s.seg.get i) off = some g → (∀ k, g ≠ .writePort k) →
      exec (g.pokeRow a v) s = .next (periphWrite a v s) := fun g ht hg =>
    unhandled_inside hshadow ▸ exec_pokeRow_of_ne_writePort hl ((writeTarget_at hp hat).trans ht) hg
  refine ⟨fun hb => ?_, fun hlo hhi hrd hlt => ?_, fun hlo hhi hrd hwr => ?_⟩
  · exact ⟨_, _, forwards _ (bankTarget_rom (isRom_iff.mpr hb)) nofun⟩
  · obtain ⟨k, rfl⟩ := Nat.exists_eq_add_of_le hrd
    exact ⟨_, _, forwards _ (bankTarget_readPort (isRam_iff.mpr ⟨hlo, hhi⟩) (Nat.lt_of_add_lt_add_left hlt)) nofun⟩
  · exact ⟨_, _, forwards _ (bankTarget_gap (isRam_iff.mpr ⟨hlo, hhi⟩) hrd hwr) nofun⟩

/-- Settles O31, over the effects of a write; those that fault or refuse end marked. -/
theorem pokeResultTellsWhoTookTheWrite : Obligations.PokeResultTellsWhoTookTheWrite := by
  intro s t i hi hpoke hreset h hl
  cases (exec_effect hi h).2 with
  | readByte i b n hn hread => obtain ⟨a, rfl | rfl | rfl⟩ := hread <;> cases hpoke
  | kept | disturbed | asked => cases hpoke
  | refused i r => exact absurd hl not_live_refuse
  | mapped i v b hw hb =>
    refine .inl ⟨?_, rfl, rfl⟩
    obtain rfl | rfl | ⟨seg, n, -, hsel⟩ := hw
    · exact .inl ⟨v, .inl rfl⟩
    · exact .inl ⟨v, .inr rfl⟩
    · exact .inr (.inl ⟨seg, n, hsel⟩)
  | faulted i v b => exact absurd hl not_live_raise
  | stored a v k => exact .inl ⟨.inr (.inr ⟨a, v, rfl⟩), rfl, rfl⟩
  | ignored i a v hrow hs => exact .inr (.inr ⟨a, v, hrow, hs, rfl, rfl⟩)
  | forwarded i a v hrow hs =>
    refine .inr (.inl ⟨a, v, _, ?_, hs, rfl, rfl⟩)
    simpa only [isUnwritable, or_assoc] using hrow
  | reset => exact absurd rfl hreset

/-- Settles O38, test by test. -/
theorem peekDispatchOrder : Obligations.PeekDispatchOrder := by
  intro s a rest hl hp
  refine ⟨fun hw => ?_, fun hw hlt => ?_, fun hw hge hhot => ?_, fun hw hge hhot i off hat => ?_⟩
  · exact (step_of_decodeRead hl hp (decodeRead_outside hw)).trans
      (execPeekOow_eq (s := { s with pending := rest }) hl hw)
  · have hs := inShadow_of_lt hw hlt
    exact ⟨_, _, (step_of_decodeRead hl hp (decodeRead_shadow hs)).trans
      (execPeekShadow_eq (s := { s with pending := rest }) hl hs)⟩
  · have hs := inShadow_eq_false_of_not_lt hge
    obtain ⟨h, rfl, hne⟩ := exists_hotAddr hhot
    exact (step_of_decodeRead hl hp (decodeRead_hot hw hne hs)).trans
      (execPeekHot_eq (s := { s with pending := rest }) hl hw hs)
  · have hpass : ReadPasses s.cfg a :=
      ⟨hw, inShadow_eq_false_of_not_lt hge, isHot_eq_false.mpr (not_or.mp hhot)⟩
    constructor
    · intro hb
      exact step_of_decodeRead hl hp
        (decodeRead_target ((readTarget_at hpass hat).trans (bankTarget_rom (isRom_iff.mpr hb))))
    · intro hlo hhi
      exact step_of_decodeRead hl hp (decodeRead_ram hpass hat (isRam_iff.mpr ⟨hlo, hhi⟩))

/-- Settles O39, test by test. -/
theorem pokeDispatchOrder : Obligations.PokeDispatchOrder := by
  intro s a v rest hl hp
  refine ⟨fun hw => ?_, fun hw hA => ?_, fun hw hA hB => ?_, fun hw hA hB i off hat => ?_,
    fun hw hA hB hg hlt => ?_⟩
  · exact (step_of_decodeWrite hl hp (decodeWrite_outside hw)).trans
      (execPokeOow_eq (s := { s with pending := rest }) (v := v) hl hw)
  · subst hA
    exact step_of_decodeWrite hl hp (decodeWrite_hotA hw)
  · subst hB
    exact step_of_decodeWrite hl hp (decodeWrite_hotB hw hA.symm)
  · have hpass : WritePasses s.cfg a := ⟨hw, isHot_eq_false.mpr ⟨hA, hB⟩⟩
    constructor
    · intro hb
      exact step_of_decodeWrite hl hp
        (decodeWrite_target ((writeTarget_at hpass hat).trans (bankTarget_rom (isRom_iff.mpr hb))))
    · intro hlo hhi
      exact step_of_decodeWrite hl hp (decodeWrite_ram hpass hat (isRam_iff.mpr ⟨hlo, hhi⟩))
  · have hs := inShadow_of_lt hw hlt
    have hh := isHot_eq_false.mpr ⟨hA, hB⟩
    exact ⟨_, _, (step_of_decodeWrite hl hp (decodeWrite_shadow hs hh hg)).trans
      (execPokeShadow_eq (s := { s with pending := rest }) hl hs hh (engineHandles_eq_false hg))⟩

/-- Settles O43: a read calls no `map`; a shadow read is one call to the peripheral. -/
theorem peekNeverChangesTheSegmentTable : Obligations.PeekNeverChangesTheSegmentTable := by
  intro s t i h hi
  have hmap := callsMap_of_isPeek hi
  refine ⟨effect_seg (exec_effect (isTransaction_of_callsMap hmap) h).2 hmap, ?_⟩
  rintro a rfl
  obtain ⟨-, -, rfl⟩ := execPeekShadow_next h
  exact ⟨fun _ => rfl, _, rfl, rfl⟩

/-- Settles O45: neither the test of the shadow range nor the peripheral's answer reads the table or the RAM. -/
theorem shadowReadIgnoresTheSegmentTable : Obligations.ShadowReadIgnoresTheSegmentTable := by
  intro s t a seg ram k h
  obtain ⟨hl, hs, rfl⟩ := execPeekShadow_next h
  exact execPeekShadow_eq (s := { s with seg := seg, ram := ram, ramInit := k }) hl hs

/-- Settles O50: a read tests the shadow range before the segment region, a write only after it. -/
theorem readAndWritePriorityDiffer : Obligations.ReadAndWritePriorityDiffer := by
  intro s a v i k hs hl hshadow hat hk hb
  have hpass : WritePasses s.cfg a := ⟨inWindow_of_inShadow hshadow, isHot_eq_false_of_inShadow hs.config hshadow⟩
  have htarget := (writeTarget_at hpass hat).trans (bankTarget_writePort hs.config (isRam_of_inv hs hat.1 hb) hk)
  exact ⟨decodeTxn_of_read rfl (decodeRead_shadow hshadow), decodeTxn_of_write rfl (decodeWrite_target htarget),
    ⟨_, _, execPeekShadow_eq hl hshadow, rfl, rfl, fun _ => rfl⟩,
    ⟨_, execPokeRamWr_eq hl htarget, rfl, rfl, ramRead_ramWrite_same hs.ramWf⟩⟩

/-- Settles O21: the answer of a shadow read is the peripheral's. -/
theorem peekShadowAsksThePeripheral : Obligations.PeekShadowAsksThePeripheral :=
  fun _ _ hl hs => ⟨_, _, execPeekShadow_eq hl hs⟩

/-- Settles O22: the refusal sets the mark alone. -/
theorem peekHotspotIsRefused : Obligations.PeekHotspotIsRefused :=
  fun _ _ hl hw hs => execPeekHot_eq hl hw hs

/-- Settles O23: the refusal of each direction sets the mark alone. -/
theorem outOfWindowIsRefused : Obligations.OutOfWindowIsRefused :=
  fun _ _ v hl hw => ⟨execPeekOow_eq hl hw, execPokeOow_eq (v := v) hl hw⟩

/-- Settles O30: the answer of a forwarded write is the peripheral's. -/
theorem pokeShadowForwardsTheWrite : Obligations.PokeShadowForwardsTheWrite :=
  fun _ _ _ hl hs hh he => ⟨_, _, execPokeShadow_eq hl hs hh he⟩

end Sys2Proof.Proofs
end

section
/-! PROOFS. The exceptions (60_exceptions): what an operation does at a marked machine, which effects of a transaction set
a mark or append an event, and from these the statements about faults, refusals and the peripheral's record. -/

namespace Sys2Proof.Machine

variable {s t : State} {i : Instr} {b j k : Nat}

/-! At a marked machine. -/

/-- Every operation but `CONSTRUCT` is guarded by the marks (60_exceptions R182, R184). -/
theorem exec_eq_whenLive (hi : ∀ image p, i ≠ .construct image p) : ∃ k, exec i s = whenLive s k := by
  cases i with
  | construct image p => exact absurd rfl (hi image p)
  | _ => exact ⟨_, rfl⟩

theorem exec_of_fault {r : FaultRec} (h : s.fault = some r) (hi : ∀ image p, i ≠ .construct image p) :
    exec i s = .fault (.halted r) := by
  obtain ⟨k, e⟩ := exec_eq_whenLive (s := s) hi
  exact e.trans (whenLive_of_fault h)

theorem exec_of_refused {r : RefusalRec} (hf : s.fault = none) (h : s.refused = some r)
    (hi : ∀ image p, i ≠ .construct image p) : exec i s = .refused (.halted r) := by
  obtain ⟨k, e⟩ := exec_eq_whenLive (s := s) hi
  exact e.trans (whenLive_of_refused hf h)

/-! The marks after a transaction. -/

/-- The fault register is kept but for the fault F1 of a hotspot write and whatever a reset does (60_exceptions R181). -/
theorem effect_fault (he : Effect s i t) :
    t.fault = s.fault ∨
    (∃ b k, bankCount s.cfg ≤ b ∧ k < 4 ∧ t = raise (.bankOutOfRange b k) s) ∨
    resetBody s = .next t := by
  cases he with
  | faulted i v b hi hb => exact .inr (.inl ⟨b, hsvSeg v, hb, hsvSeg_lt v, rfl⟩)
  | reset t h => exact .inr (.inr h)
  | _ => exact .inl rfl

/-- The refusal mark is kept but for a refusal, which changes nothing else (60_exceptions R184). -/
theorem effect_refused (he : Effect s i t) : t.refused = s.refused ∨ ∃ r, t = refuse r s := by
  cases he with
  | refused i r hi => exact .inr ⟨r, rfl⟩
  | reset t h =>
    obtain ⟨-, -, hrefused, -⟩ := resetBody_next h
    exact .inl hrefused
  | _ => exact .inl rfl

/-- A reset of a valid configuration raises no fault (70_reset_and_hazards R202). -/
theorem resetBody_fault (hv : ValidConfig s.cfg) (h : resetBody s = .next t) : t.fault = s.fault := by
  rw [resetBody_eq hv.romBanksRange.1 hv.startBankRange] at h
  cases h
  rfl

/-- The fault register holds no record of F2 (60_exceptions R181). -/
def NoSegmentFault (s : State) : Prop := ∀ b k, s.fault ≠ some (.segmentOutOfRange b k)

theorem noSegmentFault_of_live (hl : Live s) : NoSegmentFault s := by
  intro b k h
  rw [hl.1] at h
  cases h

theorem noSegmentFault_raise_bank : NoSegmentFault (raise (.bankOutOfRange b j) s) := nofun

/-- A `map` into a segment that exists raises no F2 (40_engine R110). -/
theorem mapThen_noSegmentFault {f : State → Out} (hj : j < 4)
    (hf : ∀ x, NoSegmentFault x → f x = .next t → NoSegmentFault t) (hs : NoSegmentFault s)
    (h : mapThen b j s f = .next t) : NoSegmentFault t := by
  obtain ⟨-, -, e⟩ | ⟨hj', -⟩ | ⟨-, -, e⟩ := mapThen_cases f b j s
  · exact hf (setSeg j b s) hs (e.symm.trans h)
  · omega
  · cases e.symm.trans h
    exact noSegmentFault_raise_bank

/-- Whatever the configuration, a reset maps into segments 0 to 3 only and raises no F2 (70_reset_and_hazards R202). -/
theorem resetBody_noSegmentFault (hs : NoSegmentFault s) (h : resetBody s = .next t) : NoSegmentFault t := by
  refine mapThen_noSegmentFault (s := drawn s) (by decide) (fun x hx => ?_) hs h
  refine mapThen_noSegmentFault (s := drawn x) (by decide) (fun x hx => ?_) hx
  refine mapThen_noSegmentFault (s := drawn x) (by decide) (fun x hx => ?_) hx
  refine mapThen_noSegmentFault (by decide) (fun x hx h => ?_) hx
  cases h
  exact hx

/-! The event record after an operation. -/

/-- What an operation may append to the event record: nothing, or the one call its row makes for an address in the shadow
range (60_exceptions R189). -/
def RecordsItsCall (s : State) (i : Instr) (t : State) : Prop :=
  t.events = s.events ∨
  (∃ a v, i = .peekShadow a ∧ inShadow s.cfg a = true ∧ t.events = s.events ++ [.periphRead a v]) ∨
  ∃ a v h, (i = .pokeRom a v ∨ i = .pokeRamRdport a v ∨ i = .pokeRamGap a v ∨ i = .pokeShadow a v) ∧
    inShadow s.cfg a = true ∧ t.events = s.events ++ [.periphWrite a v h]

theorem effect_events (he : Effect s i t) : RecordsItsCall s i t := by
  cases he with
  | asked a hs => exact .inr (.inl ⟨a, nextByte s, rfl, hs, rfl⟩)
  | forwarded i a v hi hs =>
    have hrow : i = .pokeRom a v ∨ i = .pokeRamRdport a v ∨ i = .pokeRamGap a v ∨ i = .pokeShadow a v := by
      simpa only [isUnwritable, or_assoc] using hi
    exact .inr (.inr ⟨a, v, nextBool s, hrow, hs, rfl⟩)
  | reset t h =>
    obtain ⟨-, hevents, -⟩ := resetBody_next h
    exact .inl hevents
  | _ => exact .inl rfl

/-- `MAP`, mapping or faulting, calls no peripheral (40_engine R110). -/
theorem execMap_events (h : execMap b k s = .next t) : t.events = s.events := by
  obtain ⟨-, ⟨-, -, rfl⟩ | ⟨-, rfl⟩ | ⟨-, -, rfl⟩⟩ := execMap_next h <;> rfl

end Sys2Proof.Machine

namespace Sys2Proof.Proofs

open Machine

/-- Settles O12: a step and every operation but `CONSTRUCT` test the fault register first, then the refusal mark. -/
theorem markedMachineHasNoStep : Obligations.MarkedMachineHasNoStep :=
  ⟨fun _ _ h => ⟨whenLive_of_fault h, fun _ hi => exec_of_fault h hi⟩,
    fun _ _ hf h => ⟨whenLive_of_refused hf h, fun _ hi => exec_of_refused hf h hi⟩⟩

/-- Settles O13: the machine was unmarked, so a record is new; the invariant's configuration lets no reset fault. -/
theorem faultChangesOnlyTheRegister : Obligations.FaultChangesOnlyTheRegister := by
  intro s t i r hs hi h hr
  obtain ⟨⟨hfault, -⟩, he⟩ := exec_effect hi h
  have new : t.fault ≠ s.fault := by simp [hr, hfault]
  obtain hkept | ⟨b, k, hb, hk, rfl⟩ | hreset := effect_fault he
  · exact absurd hkept new
  · cases hr
    exact ⟨rfl, b, k, rfl, hb, hk⟩
  · exact absurd (resetBody_fault hs.config hreset) new

/-- Settles O14: the machine was unmarked, so a record is new and the effect is the refusal. -/
theorem refusalChangesOnlyTheMark : Obligations.RefusalChangesOnlyTheMark := by
  intro s t i r hi h hr
  obtain ⟨⟨-, hrefused⟩, he⟩ := exec_effect hi h
  obtain hkept | ⟨q, rfl⟩ := effect_refused he
  · simp [hkept, hrefused] at hr
  · cases hr
    rfl

/-- Settles O15: a hotspot value has a segment field below 4, and a reset names the four segments. -/
theorem segmentFaultIsUnreachable : Obligations.SegmentFaultIsUnreachable := by
  intro s t i b k hi h
  obtain ⟨hl, he⟩ := exec_effect hi h
  have hs := noSegmentFault_of_live hl
  obtain hkept | ⟨_, _, -, -, rfl⟩ | hreset := effect_fault he
  · rw [hkept]
    exact hs b k
  · exact noSegmentFault_raise_bank b k
  · exact resetBody_noSegmentFault hs hreset b k

/-- Settles O44: a transaction by its effect; of the internal operations `MAP` makes no call. -/
theorem peripheralIsCalledOnlyInTheShadowRange : Obligations.PeripheralIsCalledOnlyInTheShadowRange := by
  intro s t i h hi
  cases i with
  | map b k => exact .inl (execMap_events h)
  | construct image p => exact absurd rfl (hi image p)
  | _ => exact effect_events (exec_effect rfl h).2

end Sys2Proof.Proofs
end

section
/-! PROOFS. Reset and construction (70_reset_and_hazards): the one state `CONSTRUCT` leaves on a valid configuration, that
whatever it leaves meets the invariant, and from these the statements about `RESET`, `CONSTRUCT` and power-on. -/

namespace Sys2Proof.Machine

variable {image : List Byte} {p : Params} {s t : State} {j n : Nat}

theorem exec_reset : exec .reset s = execReset s := rfl

/-- After a RAM initialisation every cell reads as the byte drawn for it (10_state R38). -/
theorem ramRead_of_ram_nil (h : t.ram = []) : ramRead t j = Config.freeRam t.ramInit j := by
  rw [ramRead, h, Memory.read_nil]

/-- The table a reset leaves, by the numbers of its draws, where the highest ROM bank is `n` (70_reset_and_hazards R202). -/
theorem resetSeg_of_romBanks (h : romBanks s.cfg - 1 = n) : resetSeg s =
    { s0 := (Config.freeBelow n s.draws).val
      s1 := (Config.freeBelow n (s.draws + 1)).val
      s2 := (Config.freeBelow n (s.draws + 2)).val
      s3 := s.cfg.startBank } := by
  subst h
  rfl

/-! The machine a construction makes. -/

/-- The ROM holds the image byte for byte (70_reset_and_hazards R200). -/
theorem romRead_makeConfig (h : j < image.length) : romRead (makeConfig image p) j = image[j] := by
  have hread := Memory.read_ofBytes (d := romUnlisted) (i := 0) h
  rwa [Nat.zero_add] at hread

/-- On a valid configuration `CONSTRUCT` takes one draw for RAM before its reset takes four (70_reset_and_hazards R200,
R202). -/
theorem construct_eq (v : ValidConfig (makeConfig image p)) :
    exec (.construct image p) s = .next
      { freshState (makeConfig image p) s with
        seg := resetSeg (freshState (makeConfig image p) s)
        draws := s.draws + 5
        ramInit := s.draws + 4 } :=
  (construct_valid v).trans (resetBody_eq v.romBanksRange.1 v.startBankRange)

/-- The image of `State.reset`, 65536 zero bytes, lists no byte (assumption logs 7, 16). -/
theorem makeConfig_default : makeConfig (List.replicate 65536 0) defaultParams = defaultConfig := by
  have hlist : Memory.ofBytes romUnlisted 0 (List.replicate 65536 0) = [] := Memory.ofBytes_replicate fun _ => rfl
  rw [makeConfig, List.length_replicate, hlist]
  rfl

/-- The draws that make `State.reset` are numbers 0 to 4 (assumption logs 5, 6). -/
theorem construct_default (h : s.draws = 0) :
    exec (.construct (List.replicate 65536 0) defaultParams) s = .next State.reset := by
  have hvalid : ValidConfig (makeConfig (List.replicate 65536 0) defaultParams) :=
    makeConfig_default ▸ defaultConfig_valid
  have hbanks : romBanks defaultConfig - 1 = 63 := rfl
  rw [construct_eq hvalid, makeConfig_default, resetSeg_of_romBanks hbanks, freshState, h]
  rfl

end Sys2Proof.Machine

namespace Sys2Proof

open Machine

variable {image : List Byte} {p : Params} {s t : State}

/-- The state between the checks and the reset meets the invariant: its entries are 0, and a valid configuration has a
bank 0 (10_state R24). -/
theorem StateInv.freshState (v : ValidConfig (makeConfig image p)) : StateInv (freshState (makeConfig image p) s) where
  config := v
  romWf := Memory.wf_ofBytes
  romWithin := Memory.within_ofBytes
  segLegal := fun i _ => by
    have hbank : 0 < bankCount (makeConfig image p) := v.romBanksRange.1.trans (Nat.le_add_right _ _)
    match i with
    | 0 | 1 | 2 | _ + 3 => exact hbank
  ramWf := rfl
  ramWithin := rfl
  ramInitPast := Nat.lt_succ_self _
  oneMark := .inl rfl
  faultRecord := nofun

/-- Every machine a construction makes meets the invariant (70_reset_and_hazards R200). -/
theorem StateInv.construct (h : exec (.construct image p) s = .next t) : StateInv t := by
  obtain ⟨hrange, hcheck, hreset⟩ := execConstruct_next h
  exact (StateInv.freshState (validConfig_iff.mpr ⟨hrange, hcheck⟩)).resetBody hreset

end Sys2Proof

namespace Sys2Proof.Proofs

open Machine

/-- Settles O7: an unmarked machine runs the reset; its first three draws are ROM banks and its last is the RAM's. -/
theorem resetRemapsAndRedraws : Obligations.ResetRemapsAndRedraws := by
  intro s hl hstart
  have hrom : 1 ≤ romBanks s.cfg := Nat.one_le_of_lt hstart
  have hnext := exec_reset.trans ((execReset_eq hl).trans (resetBody_eq hrom hstart))
  exact ⟨_, _, _, _, hnext, resetSeg_lt hrom hstart 0, resetSeg_lt hrom hstart 1, resetSeg_lt hrom hstart 2, rfl,
    Nat.le_add_right _ _, Nat.lt_succ_self _, fun _ => ramRead_of_ram_nil rfl⟩

/-- Settles O8, on the state `CONSTRUCT` leaves: the image read back, and the entries a reset leaves. -/
theorem constructBuildsTheMachine : Obligations.ConstructBuildsTheMachine := by
  intro image p s v
  exact ⟨_, construct_eq v, rfl, rfl, fun _ h => romRead_makeConfig h, rfl,
    fun i _ => resetSeg_lt v.romBanksRange.1 v.startBankRange i, rfl, rfl, rfl⟩

/-- Settles O6: the model's own image and parameters make the configuration of `State.reset`. -/
theorem powerOnIsConstructionAndReset : Obligations.PowerOnIsConstructionAndReset :=
  fun _ h => construct_default h

/-- Settles O1: `State.reset` is a machine a construction makes. -/
theorem powerOnStateMeetsInvariant : Obligations.PowerOnStateMeetsInvariant :=
  StateInv.construct (construct_default (s := { State.reset with draws := 0 }) rfl)

end Sys2Proof.Proofs
end
